-- ==== Sys2Proof/Word.lean ====
section
/-! DEFINITION. The two bit-vector types of the machine: the byte and the 16-bit word (00_scope.md R10). -/

namespace Sys2Proof

/-- An 8-bit unsigned value: a memory cell, a V register, a timer, an `NN` immediate (R10, R152). -/
abbrev Byte := BitVec 8

/-- A 16-bit unsigned value: `pc`, `I`, a call-stack slot, an instruction word (R10, R70). -/
abbrev Word := BitVec 16

end Sys2Proof
end

