-- ==== Sys2Proof/Config.lean ====
section
/-! DEFINITION. The fixed parameters of the machine (00_scope.md R7) and its one free value, the drawn random byte (R8).
The parameter `FONT` is `Sys2Proof.Machine.font` (Machine/Font.lean), where a repair can reach it. Register, stack, key
and timer sizes (16 registers of 8 bits, 16 slots of 16 bits, 16 keys) stand in the types of State. -/

namespace Sys2Proof

/-- `MEM_SIZE` (R7): addresses 0x000 to 0xFFF. -/
@[simp] def Config.memSize : Nat := 4096

/-- `START_ADDRESS` (R7): the load address and the reset value of `pc`. -/
@[simp] def Config.startAddress : Nat := 0x200

/-- `MAX_ROM` (R7): the longest loadable byte sequence, `MEM_SIZE - START_ADDRESS`. -/
@[simp] def Config.maxRom : Nat := 3584

/-- `SCREEN_WIDTH` (R7). -/
@[simp] def Config.screenWidth : Nat := 64

/-- `SCREEN_HEIGHT` (R7). -/
@[simp] def Config.screenHeight : Nat := 32

/-- `GLYPH_SIZE` (R7): bytes per font glyph. -/
@[simp] def Config.glyphSize : Nat := 5

/-- The byte `r` of the `k`-th draw where no input is passed (Machine/Step.lean). FREE VALUE: no body, so nothing can be
proved of it; a claim about a draw holds for every byte (R8, R32, R151; log entry 1). -/
opaque Config.randomByte : Nat → Byte

end Sys2Proof
end

