-- ==== Sys2Proof/Syntax.lean ====
section
/-! DEFINITION. The instruction set: one constructor per row of spec/opcode_table.json, in the table's order
(30_encoding.md R76). Operands are those of the row's format (R73, R74). -/

namespace Sys2Proof

/-- A V register index, a 4-bit field of the word, "structurally in range" (R21, R74). -/
abbrev Reg := Fin 16

/-- The 35 instructions (R76). `nnn` is NNN as R74 uses it, a 16-bit value with bits 15:12 zero, and `n` is N as a row
count 0 to 15; Instr.wellFormed checks both. In `shr` and `shl` the Y field is present and ignored (R73). -/
inductive Instr where
  | nop                              -- 0000
  | cls                              -- 00E0
  | ret                              -- 00EE
  | jp (nnn : Word)                  -- 1NNN
  | call (nnn : Word)                -- 2NNN
  | seImm (x : Reg) (nn : Byte)      -- 3XNN
  | sneImm (x : Reg) (nn : Byte)     -- 4XNN
  | seReg (x y : Reg)                -- 5XY0
  | ldImm (x : Reg) (nn : Byte)      -- 6XNN
  | addImm (x : Reg) (nn : Byte)     -- 7XNN
  | ldReg (x y : Reg)                -- 8XY0
  | orReg (x y : Reg)                -- 8XY1
  | andReg (x y : Reg)               -- 8XY2
  | xorReg (x y : Reg)               -- 8XY3
  | addReg (x y : Reg)               -- 8XY4
  | sub (x y : Reg)                  -- 8XY5
  | shr (x y : Reg)                  -- 8XY6, Y ignored
  | subn (x y : Reg)                 -- 8XY7
  | shl (x y : Reg)                  -- 8XYE, Y ignored
  | sneReg (x y : Reg)               -- 9XY0
  | ldI (nnn : Word)                 -- ANNN
  | jpV0 (nnn : Word)                -- BNNN
  | rnd (x : Reg) (nn : Byte)        -- CXNN
  | drw (x y : Reg) (n : Nat)        -- DXYN
  | skp (x : Reg)                    -- EX9E
  | sknp (x : Reg)                   -- EXA1
  | ldVxDt (x : Reg)                 -- FX07
  | ldVxK (x : Reg)                  -- FX0A
  | ldDtVx (x : Reg)                 -- FX15
  | ldStVx (x : Reg)                 -- FX18
  | addI (x : Reg)                   -- FX1E
  | ldF (x : Reg)                    -- FX29
  | ldB (x : Reg)                    -- FX33
  | ldMemVx (x : Reg)                -- FX55
  | ldVxMem (x : Reg)                -- FX65
  deriving DecidableEq, Repr

end Sys2Proof
end

