-- ==== Sys2Proof/WellFormed.lean ====
section
/-! DEFINITION. Which terms of Instr stand for an instruction word: the operand ranges of 30_encoding.md R74 that the
operand's type does not already give. -/

namespace Sys2Proof

/-- NNN is used as a 16-bit value with bits 15:12 zero (R74). -/
def addrFits (nnn : Word) : Bool := decide (nnn.toNat < 0x1000)

/-- N is used as a row count 0 to 15 (R74). -/
def rowsFit (n : Nat) : Bool := decide (n ≤ 15)

/-- An instruction is well formed when every operand is a value its field can hold (R72, R74). -/
def Instr.wellFormed (i : Instr) : Bool :=
  match i with
  | .nop => true
  | .cls => true
  | .ret => true
  | .jp nnn => addrFits nnn
  | .call nnn => addrFits nnn
  | .seImm _ _ => true
  | .sneImm _ _ => true
  | .seReg _ _ => true
  | .ldImm _ _ => true
  | .addImm _ _ => true
  | .ldReg _ _ => true
  | .orReg _ _ => true
  | .andReg _ _ => true
  | .xorReg _ _ => true
  | .addReg _ _ => true
  | .sub _ _ => true
  | .shr _ _ => true
  | .subn _ _ => true
  | .shl _ _ => true
  | .sneReg _ _ => true
  | .ldI nnn => addrFits nnn
  | .jpV0 nnn => addrFits nnn
  | .rnd _ _ => true
  | .drw _ _ n => rowsFit n
  | .skp _ => true
  | .sknp _ => true
  | .ldVxDt _ => true
  | .ldVxK _ => true
  | .ldDtVx _ => true
  | .ldStVx _ => true
  | .addI _ => true
  | .ldF _ => true
  | .ldB _ => true
  | .ldMemVx _ => true
  | .ldVxMem _ => true

end Sys2Proof
end

