-- ==== Sys2Proof/Decode.lean ====
section
/-! DEFINITION. The decoder, table-driven from the opcode map of 30_encoding.md R76 and total on any bytes, and after it
the encoder of R83. -/

namespace Sys2Proof

/-- Why bytes decode to no instruction. -/
inductive Reject where
  /-- The word fits no row of the opcode map (R77); it carries the whole 16-bit word (92_eei_decisions.md D30). -/
  | unimplementedOpcode (op : Word)
  /-- Fewer than two bytes: every instruction is one 16-bit word (R70). -/
  | truncated
  deriving DecidableEq, Repr

/-- The word of two consecutive bytes, the byte at the lower address in bits 15:8 (R53, R71). -/
def wordOf (hi lo : Byte) : Word := hi ++ lo

/-- `op[15:8]`, the byte at the lower address (R71). -/
def highByte (op : Word) : Byte := op.extractLsb 15 8

/-- `op[7:0]`, the byte at the higher address (R71). -/
def lowByte (op : Word) : Byte := op.extractLsb 7 0

/-- `X` = op[11:8] (R72). -/
def fieldX (op : Word) : Reg := (op.extractLsb 11 8).toFin

/-- `Y` = op[7:4] (R72). -/
def fieldY (op : Word) : Reg := (op.extractLsb 7 4).toFin

/-- `N` = op[3:0], a row count (R72, R74). -/
def fieldN (op : Word) : Nat := (op.extractLsb 3 0).toNat

/-- `NN` = op[7:0] (R72). -/
def fieldNN (op : Word) : Byte := op.extractLsb 7 0

/-- `NNN` = op[11:0], zero-extended to 16 bits (R72, R74). -/
def fieldNNN (op : Word) : Word := (op.extractLsb 11 0).setWidth 16

/-- One row of the opcode map (R76): `pattern` is its Match column, `build` reads the operands of its format (R73). -/
structure OpcodeRow where
  mnemonic : String
  pattern : Word
  mask : Word
  build : Word → Instr

/-- A word is the row's instruction iff `(op & mask) = match` (R76). -/
def OpcodeRow.fits (r : OpcodeRow) (op : Word) : Bool := op &&& r.mask == r.pattern

/-- Rows 1 to 8 of R76: no operation, display clear, control transfer, skips. -/
def flowRows : List OpcodeRow :=
  [ ⟨"NOP",     0x0000, 0xFFFF, fun _  => .nop⟩,
    ⟨"CLS",     0x00E0, 0xFFFF, fun _  => .cls⟩,
    ⟨"RET",     0x00EE, 0xFFFF, fun _  => .ret⟩,
    ⟨"JP",      0x1000, 0xF000, fun op => .jp (fieldNNN op)⟩,
    ⟨"CALL",    0x2000, 0xF000, fun op => .call (fieldNNN op)⟩,
    ⟨"SE_IMM",  0x3000, 0xF000, fun op => .seImm (fieldX op) (fieldNN op)⟩,
    ⟨"SNE_IMM", 0x4000, 0xF000, fun op => .sneImm (fieldX op) (fieldNN op)⟩,
    ⟨"SE_REG",  0x5000, 0xF00F, fun op => .seReg (fieldX op) (fieldY op)⟩ ]

/-- Rows 9 to 20 of R76: register loads and arithmetic, and the last register skip. -/
def aluRows : List OpcodeRow :=
  [ ⟨"LD_IMM",  0x6000, 0xF000, fun op => .ldImm (fieldX op) (fieldNN op)⟩,
    ⟨"ADD_IMM", 0x7000, 0xF000, fun op => .addImm (fieldX op) (fieldNN op)⟩,
    ⟨"LD_REG",  0x8000, 0xF00F, fun op => .ldReg (fieldX op) (fieldY op)⟩,
    ⟨"OR",      0x8001, 0xF00F, fun op => .orReg (fieldX op) (fieldY op)⟩,
    ⟨"AND",     0x8002, 0xF00F, fun op => .andReg (fieldX op) (fieldY op)⟩,
    ⟨"XOR",     0x8003, 0xF00F, fun op => .xorReg (fieldX op) (fieldY op)⟩,
    ⟨"ADD_REG", 0x8004, 0xF00F, fun op => .addReg (fieldX op) (fieldY op)⟩,
    ⟨"SUB",     0x8005, 0xF00F, fun op => .sub (fieldX op) (fieldY op)⟩,
    ⟨"SHR",     0x8006, 0xF00F, fun op => .shr (fieldX op) (fieldY op)⟩,
    ⟨"SUBN",    0x8007, 0xF00F, fun op => .subn (fieldX op) (fieldY op)⟩,
    ⟨"SHL",     0x800E, 0xF00F, fun op => .shl (fieldX op) (fieldY op)⟩,
    ⟨"SNE_REG", 0x9000, 0xF00F, fun op => .sneReg (fieldX op) (fieldY op)⟩ ]

/-- Rows 21 to 35 of R76: index register, computed jump, random, draw, keypad, timers, memory. -/
def indexRows : List OpcodeRow :=
  [ ⟨"LD_I",      0xA000, 0xF000, fun op => .ldI (fieldNNN op)⟩,
    ⟨"JP_V0",     0xB000, 0xF000, fun op => .jpV0 (fieldNNN op)⟩,
    ⟨"RND",       0xC000, 0xF000, fun op => .rnd (fieldX op) (fieldNN op)⟩,
    ⟨"DRW",       0xD000, 0xF000, fun op => .drw (fieldX op) (fieldY op) (fieldN op)⟩,
    ⟨"SKP",       0xE09E, 0xF0FF, fun op => .skp (fieldX op)⟩,
    ⟨"SKNP",      0xE0A1, 0xF0FF, fun op => .sknp (fieldX op)⟩,
    ⟨"LD_VX_DT",  0xF007, 0xF0FF, fun op => .ldVxDt (fieldX op)⟩,
    ⟨"LD_VX_K",   0xF00A, 0xF0FF, fun op => .ldVxK (fieldX op)⟩,
    ⟨"LD_DT_VX",  0xF015, 0xF0FF, fun op => .ldDtVx (fieldX op)⟩,
    ⟨"LD_ST_VX",  0xF018, 0xF0FF, fun op => .ldStVx (fieldX op)⟩,
    ⟨"ADD_I",     0xF01E, 0xF0FF, fun op => .addI (fieldX op)⟩,
    ⟨"LD_F",      0xF029, 0xF0FF, fun op => .ldF (fieldX op)⟩,
    ⟨"LD_B",      0xF033, 0xF0FF, fun op => .ldB (fieldX op)⟩,
    ⟨"LD_MEM_VX", 0xF055, 0xF0FF, fun op => .ldMemVx (fieldX op)⟩,
    ⟨"LD_VX_MEM", 0xF065, 0xF0FF, fun op => .ldVxMem (fieldX op)⟩ ]

/-- The complete instruction set, 35 rows (R76). -/
def opcodeTable : List OpcodeRow := flowRows ++ aluRows ++ indexRows

/-- Decode one word: the row that fits it, or a rejection by name (R75, R77, R81 line 2). -/
def decodeWord (op : Word) : Except Reject Instr :=
  match opcodeTable.find? (·.fits op) with
  | some r => .ok (r.build op)
  | none => .error (.unimplementedOpcode op)

/-- Decode the first instruction of a byte sequence, high byte first (R71), and give the bytes after it. -/
def decode (bytes : List Byte) : Except Reject (Instr × List Byte) :=
  match bytes with
  | hi :: lo :: rest =>
    match decodeWord (wordOf hi lo) with
    | .ok i => .ok (i, rest)
    | .error e => .error e
  | [_] => .error .truncated
  | [] => .error .truncated

/-- A register index placed at bits 11:8 (R83). -/
def placeX (x : Reg) : Word := BitVec.ofNat 16 x.val <<< 8

/-- A register index placed at bits 7:4 (R83). -/
def placeY (y : Reg) : Word := BitVec.ofNat 16 y.val <<< 4

/-- The word of an instruction of format X: `match | (X << 8)` (R73, R83). -/
def encodeX (pattern : Word) (x : Reg) : Word := pattern ||| placeX x

/-- Format XY: `match | (X << 8) | (Y << 4)` (R73, R83). -/
def encodeXY (pattern : Word) (x y : Reg) : Word := pattern ||| placeX x ||| placeY y

/-- Format XYN: `match | (X << 8) | (Y << 4) | N` (R73, R83). -/
def encodeXYN (pattern : Word) (x y : Reg) (n : Nat) : Word := pattern ||| placeX x ||| placeY y ||| BitVec.ofNat 16 n

/-- Format XNN: `match | (X << 8) | NN` (R73, R83). -/
def encodeXNN (pattern : Word) (x : Reg) (nn : Byte) : Word := pattern ||| placeX x ||| nn.setWidth 16

/-- Format NNN: `match | NNN` (R73, R83). -/
def encodeNNN (pattern nnn : Word) : Word := pattern ||| nnn

/-- The instruction word of a well-formed instruction (R83, with the Match column of R76). -/
def encode (i : Instr) : Word :=
  match i with
  | .nop => 0x0000
  | .cls => 0x00E0
  | .ret => 0x00EE
  | .jp nnn => encodeNNN 0x1000 nnn
  | .call nnn => encodeNNN 0x2000 nnn
  | .seImm x nn => encodeXNN 0x3000 x nn
  | .sneImm x nn => encodeXNN 0x4000 x nn
  | .seReg x y => encodeXY 0x5000 x y
  | .ldImm x nn => encodeXNN 0x6000 x nn
  | .addImm x nn => encodeXNN 0x7000 x nn
  | .ldReg x y => encodeXY 0x8000 x y
  | .orReg x y => encodeXY 0x8001 x y
  | .andReg x y => encodeXY 0x8002 x y
  | .xorReg x y => encodeXY 0x8003 x y
  | .addReg x y => encodeXY 0x8004 x y
  | .sub x y => encodeXY 0x8005 x y
  | .shr x y => encodeXY 0x8006 x y
  | .subn x y => encodeXY 0x8007 x y
  | .shl x y => encodeXY 0x800E x y
  | .sneReg x y => encodeXY 0x9000 x y
  | .ldI nnn => encodeNNN 0xA000 nnn
  | .jpV0 nnn => encodeNNN 0xB000 nnn
  | .rnd x nn => encodeXNN 0xC000 x nn
  | .drw x y n => encodeXYN 0xD000 x y n
  | .skp x => encodeX 0xE09E x
  | .sknp x => encodeX 0xE0A1 x
  | .ldVxDt x => encodeX 0xF007 x
  | .ldVxK x => encodeX 0xF00A x
  | .ldDtVx x => encodeX 0xF015 x
  | .ldStVx x => encodeX 0xF018 x
  | .addI x => encodeX 0xF01E x
  | .ldF x => encodeX 0xF029 x
  | .ldB x => encodeX 0xF033 x
  | .ldMemVx x => encodeX 0xF055 x
  | .ldVxMem x => encodeX 0xF065 x

/-- The instruction's two bytes as memory holds them, high byte at the lower address (R53, R83). -/
def encodeBytes (i : Instr) : List Byte := [highByte (encode i), lowByte (encode i)]

/-- What the decoder reads from a word of the opcode table: the low `nbits` bits of `w`, laid out as the hardware stores
them (high byte first) and given to `decode`. -/
def decodeTableWord (nbits w : Nat) : Option Instr :=
  let op : Word := BitVec.ofNat 16 (w % 2 ^ nbits)
  match decode [highByte op, lowByte op] with
  | .ok (i, _) => some i
  | .error _ => none

end Sys2Proof
end

