-- ==== Sys2Proof/Machine/State.lean ====
section
/-! DEFINITION. The whole state of the machine as plain data (10_state.md R20), its faults and its reset value (R33). -/

namespace Sys2Proof.Machine

/-- The faults of 60_exceptions.md R230, a closed list: each is the typed outcome of an operation, handed to the host, and
the operation that raises it changes no state (R238). All are SAFE: the spec itself ends the operation there. -/
inductive Fault where
  /-- Raised by the host operation Load when the image is longer than 3584 bytes (R231, R273). Safe. -/
  | romTooLarge
  /-- Raised by Step at decode when the word fits no row of the opcode map; carries the word (R232). Safe. -/
  | unimplementedOpcode (op : Word)
  /-- Raised by Step at fetch and in FX33, FX55, FX65, DXYN for an address outside memory (R233). Safe. -/
  | memoryOutOfBounds
  /-- Raised by Step in 2NNN when all sixteen slots are in use (R234). Safe. -/
  | stackOverflow
  /-- Raised by Step in 00EE when the stack is empty (R235). Safe. -/
  | stackUnderflow
  /-- Raised by KeySet for an index above 15 and by Step in EX9E, EXA1 when `V[X] > 15` (R236). Safe. -/
  | invalidKeyIndex
  deriving DecidableEq, Repr

/-- Refusals: reasons of the model's own for giving no outcome. -/
inductive Refusal where
  /-- Would be raised by an arm of exec that has no meaning; no arm of this model raises it. Safe. -/
  | notModelled (mnemonic : String)
  deriving DecidableEq, Repr

/-- Memory: the cells that differ from what an unlisted address reads as (Memory.resetByte), in strictly rising order of
address (Memory.wf). 4096 bytes, addresses 0x000 to 0xFFF (R30, R50). -/
abbrev Memory := List Host.Cell

/-- The boolean grid of 64×32 cells, row-major: 32 rows of 64 columns; `true` is a lit pixel (R29, R192). -/
abbrev Display := Vector (Vector Bool 64) 32

/-- The ten items of R20, and one field of the model's own. -/
structure State where
  /-- `mem[0..4095]` (R30). -/
  mem : Memory
  /-- Program counter (R23). -/
  pc : Word
  /-- `V[0..15]`; `V[15]` is also VF, the only flag (R21, R22). -/
  v : Vector Byte 16
  /-- Index register `I` (R25). -/
  i : Word
  /-- `stack[0..15]` (R26). -/
  stack : Vector Word 16
  /-- Stack pointer `SP`, the number of return addresses held, 0 to 16 (R26). -/
  sp : Fin 17
  /-- Delay timer (R27). -/
  dt : Byte
  /-- Sound timer (R27). -/
  st : Byte
  /-- `key[0..15]`, true = pressed (R28). -/
  key : Vector Bool 16
  /-- `disp[0..2047]` (R29). -/
  disp : Display
  /-- THE MODEL'S OWN, no state of the spec: the index of the next free value Config.randomByte, for `step`, whose fixed
  type passes no input byte. `Step(r)` itself, stepWith, neither reads nor writes it (R8, R32; log entry 1). -/
  draws : Nat
  deriving DecidableEq, Repr

/-- The state after Reset and after power-on (R33, R271): all zero or false but `pc` = 0x200 and the font, which is what
unlisted addresses 0 to 79 read as. `draws` is the model's own (log entry 1). -/
def State.reset : State where
  mem := []
  pc := BitVec.ofNat 16 Config.startAddress
  v := Vector.replicate 16 0
  i := 0
  stack := Vector.replicate 16 0
  sp := 0
  dt := 0
  st := 0
  key := Vector.replicate 16 false
  disp := Vector.replicate 32 (Vector.replicate 64 false)
  draws := 0

/-- The outcome of an operation that can fail (R9): a next state, a fault, or (never here) a refusal. -/
abbrev Result := Host.Outcome State Fault Refusal

end Sys2Proof.Machine
end

