-- ==== Sys2Proof/Machine/Ops.lean ====
section
/-! DEFINITION. The named operations over memory, registers, stack, display and faults that every meaning is written in. -/

namespace Sys2Proof.Machine

/-! ## Memory (20_memory.md) -/

/-- `mem[a]`: the byte at an address that a rule has already checked (R11, R56). -/
def Memory.peek (m : Memory) (a : Nat) : Byte :=
  match m with
  | [] => Memory.resetByte a
  | c :: m => if a = c.1 then c.2 else Memory.peek m a

/-- Put a cell before the first cell with a greater address. -/
def Memory.insertCell (m : Memory) (c : Host.Cell) : Memory :=
  match m with
  | [] => [c]
  | d :: m => if c.1 < d.1 then c :: d :: m else d :: Memory.insertCell m c

/-- `mem[a] <- v`: the byte at that address and no other changes (R56); the canonical form is kept. -/
def Memory.poke (m : Memory) (a : Nat) (v : Byte) : Memory :=
  let rest := m.filter (fun c => c.1 != a)
  if v = Memory.resetByte a then rest else Memory.insertCell rest (a, v)

/-- Bytes stored one after the other from `a` up, addresses never wrapped (R63, R176). -/
def Memory.pokes (m : Memory) (a : Nat) (bytes : List Byte) : Memory :=
  match bytes with
  | [] => m
  | b :: bs => Memory.pokes (Memory.poke m a b) (a + 1) bs

/-- The canonical form: addresses strictly rising and inside memory, no cell equal to what its address reads as unlisted. -/
abbrev Memory.wf (m : Memory) : Prop :=
  m.Pairwise (fun c d => c.1 < d.1) ∧ ∀ c ∈ m, c.1 < Config.memSize ∧ c.2 ≠ Memory.resetByte c.1

/-- The bounds check of R52 for the `n` bytes from `a`, on unbounded integers (R63): the last address is inside memory; no
bytes need no check (44_display.md R191, N = 0). -/
def blockFits (a n : Nat) : Bool := n == 0 || decide (a + (n - 1) < Config.memSize)

/-- `MemRead` (R52) of `n` consecutive bytes, lowest address first; the whole range is checked before any access. -/
def Memory.readBlock (m : Memory) (a n : Nat) : Except Fault (List Byte) :=
  if blockFits a n then .ok ((List.range n).map (fun k => m.peek (a + k))) else .error .memoryOutOfBounds

/-- `MemWrite` (R52) of consecutive bytes; the whole range is checked before the first write, so it is all or nothing
(R52, R176). -/
def Memory.writeBlock (m : Memory) (a : Nat) (bytes : List Byte) : Except Fault Memory :=
  if blockFits a bytes.length then .ok (m.pokes a bytes) else .error .memoryOutOfBounds

/-! ## Registers -/

/-- `V[x]` (R11, R21). -/
def State.getV (s : State) (x : Reg) : Byte := s.v[x.val]

/-- `V[x] <- b` (R11, R21). -/
def State.setV (s : State) (x : Reg) (b : Byte) : State := { s with v := s.v.set x.val b }

/-- VF, the same register as `V[15]` (R22). -/
def vf : Reg := 15

/-- `pc <- a` (R11). -/
def State.setPc (s : State) (a : Word) : State := { s with pc := a }

/-- `I <- a` (R25). -/
def State.setI (s : State) (a : Word) : State := { s with i := a }

/-- Memory replaced as a whole, by one of the operations above. -/
def State.setMem (s : State) (m : Memory) : State := { s with mem := m }

/-- The display replaced as a whole. -/
def State.setDisp (s : State) (d : Display) : State := { s with disp := d }

/-- `DT <- b` (R27). -/
def State.setDt (s : State) (b : Byte) : State := { s with dt := b }

/-- `ST <- b` (R27). -/
def State.setSt (s : State) (b : Byte) : State := { s with st := b }

/-- `V[0]` to `V[x]`, in order (R174). -/
def State.regsUpTo (s : State) (x : Reg) : List Byte := s.v.toList.take (x.val + 1)

/-- Bytes written to the registers from `V[k]` up (R175). -/
def setRegs (v : Vector Byte 16) (k : Nat) (bytes : List Byte) : Vector Byte 16 :=
  match bytes with
  | [] => v
  | b :: bs => setRegs (v.set (Fin.ofNat 16 k).val b) (k + 1) bs

/-- `V[0] ..` replaced by the bytes read (R175). -/
def State.loadRegs (s : State) (bytes : List Byte) : State := { s with v := setRegs s.v 0 bytes }

/-- One random byte is taken: the next draw has the next index (R151; log entry 1). -/
def State.countDraw (s : State) : State := { s with draws := s.draws + 1 }

/-! ## Program counter -/

/-- The fetch advance `pc <- p + 2` (R23, R81 line 3). -/
def State.advance (s : State) : State := s.setPc (s.pc + 2)

/-- A skip: a further 2 is added to the already advanced `pc` (R124). -/
def State.skipIf (s : State) (c : Bool) : State := if c then s.setPc (s.pc + 2) else s

/-- The rewind of FX0A: `pc <- pc - 2`, back to the instruction's own address (R213). -/
def State.rewind (s : State) : State := s.setPc (s.pc - 2)

/-! ## Call stack (R26) -/

/-- Push: write `stack[SP]`, then add 1 to `SP`; none when all sixteen slots are in use (R26, R103). -/
def State.push (s : State) (a : Word) : Option State :=
  if h : s.sp.val < 16 then
    some { s with stack := s.stack.set s.sp.val a, sp := ⟨s.sp.val + 1, by omega⟩ }
  else none

/-- Pop: subtract 1 from `SP`, then read `stack[SP]`, whose slot keeps its value; none when empty (R26, R101). -/
def State.pop (s : State) : Option (Word × State) :=
  if h : 0 < s.sp.val then
    some (s.stack[s.sp.val - 1]'(by omega), { s with sp := ⟨s.sp.val - 1, by omega⟩ })
  else none

/-! ## Display (44_display.md) -/

/-- `disp[c]`: cell `c` is row `c / 64`, column `c mod 64` (R192). -/
def Display.cell (d : Display) (c : Fin 2048) : Bool := d[c.val / 64][c.val % 64]

/-- `disp[c] <- b`. -/
def Display.setCell (d : Display) (c : Fin 2048) (b : Bool) : Display :=
  d.set (c.val / 64) ((d[c.val / 64]).set (c.val % 64) b)

/-- All 2048 cells false (R190). -/
def Display.clear : Display := Vector.replicate 32 (Vector.replicate 64 false)

/-! ## Faults (60_exceptions.md) -/

/-- Fault entry (R238): the operation ends with the fault as its outcome. Nothing is saved or vectored, no mode changes,
and the state stays as it was before the operation (stateAfter). -/
def raise (f : Fault) : Result := .fault f

/-- The numeric code of a fault, an identity and nothing more (R230, R252; log entry 22). -/
def Fault.code (f : Fault) : Nat :=
  match f with
  | .romTooLarge => 1
  | .unimplementedOpcode _ => 2
  | .memoryOutOfBounds => 3
  | .stackOverflow => 4
  | .stackUnderflow => 5
  | .invalidKeyIndex => 6

/-- The state after an operation that began in `s`: its next state, or `s` itself, `pc` included, when it faulted (R81,
R238). There is no return from a fault: the machine accepts any further operation from this state (R239). -/
def stateAfter (s : State) (r : Result) : State :=
  match r with
  | .next t => t
  | .fault _ => s
  | .refused _ => s

/-- The fault of a word that is no instruction (R232). A truncated instruction is one whose second byte lies outside memory
(R71); a fetch of two bytes never gives it. -/
def rejectFault (e : Reject) : Fault :=
  match e with
  | .unimplementedOpcode op => .unimplementedOpcode op
  | .truncated => .memoryOutOfBounds

/-- Fetch (R71): the two bytes at `pc` and `pc + 1`, both of which must lie in memory. -/
def State.fetch (s : State) : Except Fault (List Byte) := s.mem.readBlock s.pc.toNat 2

/-- Fetch and decode (R81 lines 1 and 2): the instruction at `pc`, or the first of their faults (R237). -/
def State.fetchDecode (s : State) : Except Fault Instr :=
  match s.fetch with
  | .error f => .error f
  | .ok bytes =>
    match decode bytes with
    | .error e => .error (rejectFault e)
    | .ok (i, _) => .ok i

end Sys2Proof.Machine
end

