-- ==== Sys2Proof/Machine/Operands.lean ====
section
/-! DEFINITION. Operand forms: immediates widened, the effective address through `I`, key indices, decimal digits, display
coordinates and sprite pixels (30_encoding.md R74). -/

namespace Sys2Proof.Machine

/-- `zext_16(v)` (R11). -/
def zext16 (b : Byte) : Word := b.setWidth 16

/-- `I` as the base of an access: the effective address of element `k` is the unbounded sum `I + k` (R63, R176). -/
def State.base (s : State) : Nat := s.i.toNat

/-- A computed key index: the whole byte, which must be at most 15 (R210, R211). -/
def keyIndex (b : Byte) : Option (Fin 16) := if h : b.toNat < 16 then some ⟨b.toNat, h⟩ else none

/-- The least `k` with `key[k]`, if any key is pressed (R213). -/
def leastKey (key : Vector Bool 16) : Option (Fin 16) := (List.finRange 16).find? (fun k => key[k.val])

/-- A key index as the byte FX0A writes, 0x00 to 0x0F (R213). -/
def keyByte (k : Fin 16) : Byte := BitVec.ofNat 8 k.val

/-- The hundreds, tens and ones digits of a byte, most significant first (R173). -/
def bcdDigits (b : Byte) : List Byte :=
  [BitVec.ofNat 8 (b.toNat / 100), BitVec.ofNat 8 (b.toNat / 10 % 10), BitVec.ofNat 8 (b.toNat % 10)]

/-- The address of font glyph `b`: `5 * zext_16(b)` (R172). -/
def glyphAddress (b : Byte) : Word := BitVec.ofNat 16 (Config.glyphSize * b.toNat)

/-- The cell at column `x`, row `y`, each reduced modulo the screen size (R191, R195). -/
def cellAt (x y : Nat) : Fin 2048 :=
  ⟨(y % Config.screenHeight) * Config.screenWidth + x % Config.screenWidth, by simp; omega⟩

/-- The pixel of a sprite row at column offset `col`: bit `7 - col`, the most significant bit leftmost (R193). -/
def spriteBit (b : Byte) (col : Nat) : Bool := b.getLsbD (7 - col)

/-- One pixel of DXYN at (`x`, `y`): where the sprite bit is set, a lit cell is a hit and the cell is toggled (R191). The
pair is the display and `hit`. -/
def drawPixel (bit : Bool) (x y : Nat) (acc : Display × Bool) : Display × Bool :=
  if bit then
    (acc.1.setCell (cellAt x y) (!acc.1.cell (cellAt x y)), acc.2 || acc.1.cell (cellAt x y))
  else acc

/-- One sprite row of DXYN: columns 0 to 7 in order (R191). -/
def drawRow (b : Byte) (x0 y : Nat) (acc : Display × Bool) : Display × Bool :=
  (List.range 8).foldl (fun acc col => drawPixel (spriteBit b col) (x0 + col) y acc) acc

/-- The sprite's rows drawn from row `y` down (R191). -/
def drawSprite (x0 y : Nat) (rows : List Byte) (acc : Display × Bool) : Display × Bool :=
  match rows with
  | [] => acc
  | b :: bs => drawSprite x0 (y + 1) bs (drawRow b x0 y acc)

end Sys2Proof.Machine
end

