-- ==== Sys2Proof/Machine/Flags.lean ====
section
/-! DEFINITION. The flag computations: what each flag-writing instruction puts into VF, and that register's write
(10_state.md R22, 42_alu.md R152, R154). -/

namespace Sys2Proof.Machine

/-- Carry, borrow, shifted-out bit and collision are always written as 0x00 or 0x01 (R152). -/
def flagByte (b : Bool) : Byte := if b then 1 else 0

/-- `V[15] <- b ? 1 : 0` (R22). -/
def State.setFlag (s : State) (b : Bool) : State := s.setV vf (flagByte b)

/-- The sum modulo 256 and the carry out of bit 7, from the unbounded sum (R146). -/
def addCarry (a b : Byte) : Byte × Bool :=
  let sum := a.toNat + b.toNat
  (BitVec.ofNat 8 sum, decide (sum > 255))

/-- The difference modulo 256 and the flag, true when there was NO borrow, that is `a >= b` (R147, R152). -/
def subNoBorrow (a b : Byte) : Byte × Bool :=
  let diff : Int := (a.toNat : Int) - (b.toNat : Int)
  (BitVec.ofInt 8 diff, decide (0 ≤ diff))

/-- The bit a right shift puts out: bit 0 before the shift (R148). -/
def lowBit (b : Byte) : Bool := b.getLsbD 0

/-- The bit a left shift puts out: bit 7 before the shift (R150). -/
def highBit (b : Byte) : Bool := b.getLsbD 7

end Sys2Proof.Machine
end

