-- ==== Sys2Proof/Machine/Alu.lean ====
section
/-! DEFINITION. Register load, arithmetic, logic, shift and random: 6XNN, 7XNN, 8XY0 to 8XY7, 8XYE, CXNN (42_alu.md). None
can fault. Where VF is a flag, operands are read first and the writes happen in the row's order (R154). -/

namespace Sys2Proof.Machine

/-- 6XNN LD Vx, byte (R140). -/
def execLdImm (x : Reg) (nn : Byte) (s : State) : Result := .next (s.setV x nn)

/-- 7XNN ADD Vx, byte: wraps, VF is not written (R141). -/
def execAddImm (x : Reg) (nn : Byte) (s : State) : Result := .next (s.setV x (s.getV x + nn))

/-- 8XY0 LD Vx, Vy (R142). -/
def execLdReg (x y : Reg) (s : State) : Result := .next (s.setV x (s.getV y))

/-- 8XY1 OR: VF is not written (R143). -/
def execOrReg (x y : Reg) (s : State) : Result := .next (s.setV x (s.getV x ||| s.getV y))

/-- 8XY2 AND: VF is not written (R144). -/
def execAndReg (x y : Reg) (s : State) : Result := .next (s.setV x (s.getV x &&& s.getV y))

/-- 8XY3 XOR: VF is not written (R145). -/
def execXorReg (x y : Reg) (s : State) : Result := .next (s.setV x (s.getV x ^^^ s.getV y))

/-- 8XY4 ADD Vx, Vy: the sum, then VF = carry (R146). -/
def execAddReg (x y : Reg) (s : State) : Result :=
  let r := addCarry (s.getV x) (s.getV y)
  .next ((s.setV x r.1).setFlag r.2)

/-- 8XY5 SUB Vx, Vy: `V[X] - V[Y]`, then VF = 1 when no borrow occurred (R147). -/
def execSub (x y : Reg) (s : State) : Result :=
  let r := subNoBorrow (s.getV x) (s.getV y)
  .next ((s.setV x r.1).setFlag r.2)

/-- 8XY6 SHR Vx: VF = bit 0, then `V[X]` as it now stands shifted right; Y is ignored (R148). The order, seen only for
X = 0xF, is DESIGN CHOICE D13 of the spec (log entry 6). -/
def execShr (x _y : Reg) (s : State) : Result :=
  let t := s.setFlag (lowBit (s.getV x))
  .next (t.setV x (t.getV x >>> 1))

/-- 8XY7 SUBN Vx, Vy: `V[Y] - V[X]`, then VF = 1 when no borrow occurred (R149). -/
def execSubn (x y : Reg) (s : State) : Result :=
  let r := subNoBorrow (s.getV y) (s.getV x)
  .next ((s.setV x r.1).setFlag r.2)

/-- 8XYE SHL Vx: VF = bit 7, then `V[X]` as it now stands shifted left; Y is ignored (R150). The order is as in execShr
(log entry 6). -/
def execShl (x _y : Reg) (s : State) : Result :=
  let t := s.setFlag (highBit (s.getV x))
  .next (t.setV x (t.getV x <<< 1))

/-- CXNN with the drawn byte `r`, the input of this Step (R8, R151). -/
def rndWith (r : Byte) (x : Reg) (nn : Byte) (s : State) : State := s.setV x (r &&& nn)

/-- CXNN RND Vx, byte, where no input is passed: `r` is the next free value, which is then used up (R8, R151; log entry 1). -/
def execRnd (x : Reg) (nn : Byte) (s : State) : Result := .next (rndWith (Config.randomByte s.draws) x nn s).countDraw

end Sys2Proof.Machine
end

