-- ==== Sys2Proof/Machine/Flow.lean ====
section
/-! DEFINITION. Control transfer: 0000, 00EE, 1NNN, 2NNN, BNNN (40_flow.md). `pc` is already the address of the following
instruction (30_encoding.md R81). -/

namespace Sys2Proof.Machine

/-- 0000 NOP: nothing but the fetch advance (R100). -/
def execNop (s : State) : Result := .next s

/-- 00EE RET: pop the return address into `pc` (R101). -/
def execRet (s : State) : Result :=
  match s.pop with
  | some (a, t) => .next (t.setPc a)
  | none => raise .stackUnderflow

/-- 1NNN JP: the target is not checked at the jump (R102). -/
def execJp (nnn : Word) (s : State) : Result := .next (s.setPc nnn)

/-- 2NNN CALL: push the advanced `pc`, then jump (R103). -/
def execCall (nnn : Word) (s : State) : Result :=
  match s.push s.pc with
  | some t => .next (t.setPc nnn)
  | none => raise .stackOverflow

/-- BNNN JP V0: `V[0] + NNN`, not reduced to 12 bits (R104). -/
def execJpV0 (nnn : Word) (s : State) : Result := .next (s.setPc (zext16 (s.getV 0) + nnn))

end Sys2Proof.Machine
end

