-- ==== Sys2Proof/Machine/IndexMemory.lean ====
section
/-! DEFINITION. The index register and the instructions that move data through it: ANNN, FX1E, FX29, FX33, FX55, FX65
(43_index_memory.md). None writes VF as a flag and none changes `I` as a side effect of an access (R176). -/

namespace Sys2Proof.Machine

/-- ANNN LD I, addr (R170). -/
def execLdI (nnn : Word) (s : State) : Result := .next (s.setI nnn)

/-- FX1E ADD I, Vx: wraps at 16 bits, VF is not written (R171). -/
def execAddI (x : Reg) (s : State) : Result := .next (s.setI (s.i + zext16 (s.getV x)))

/-- FX29 LD F, Vx: five times the whole byte; reads no memory (R172). -/
def execLdF (x : Reg) (s : State) : Result := .next (s.setI (glyphAddress (s.getV x)))

/-- A store instruction: all the bytes from `I` up, or the fault and no write (R52, R176). -/
def storeAtI (bytes : List Byte) (s : State) : Result :=
  match s.mem.writeBlock s.base bytes with
  | .ok m => .next (s.setMem m)
  | .error f => raise f

/-- FX33 LD B, Vx: the three decimal digits to `I`, `I+1`, `I+2` (R173). -/
def execLdB (x : Reg) (s : State) : Result := storeAtI (bcdDigits (s.getV x)) s

/-- FX55 LD [I], Vx: `V[0]` to `V[X]` to `I` and up (R174). -/
def execLdMemVx (x : Reg) (s : State) : Result := storeAtI (s.regsUpTo x) s

/-- FX65 LD Vx, [I]: `V[0]` to `V[X]` from `I` and up (R175). -/
def execLdVxMem (x : Reg) (s : State) : Result :=
  match s.mem.readBlock s.base (x.val + 1) with
  | .ok bytes => .next (s.loadRegs bytes)
  | .error f => raise f

end Sys2Proof.Machine
end

