-- ==== Sys2Proof/Machine/KeyTimer.lean ====
section
/-! DEFINITION. Keypad and timer instructions: EX9E, EXA1, FX07, FX0A, FX15, FX18 (45_keypad_timers.md). -/

namespace Sys2Proof.Machine

/-- EX9E SKP Vx: skip if key `V[X]` is pressed; an index above 15 is `InvalidKeyIndex` (R210). -/
def execSkp (x : Reg) (s : State) : Result :=
  match keyIndex (s.getV x) with
  | some k => .next (s.skipIf s.key[k.val])
  | none => raise .invalidKeyIndex

/-- EXA1 SKNP Vx: skip if key `V[X]` is not pressed (R211). -/
def execSknp (x : Reg) (s : State) : Result :=
  match keyIndex (s.getV x) with
  | some k => .next (s.skipIf (!s.key[k.val]))
  | none => raise .invalidKeyIndex

/-- FX07 LD Vx, DT (R212). -/
def execLdVxDt (x : Reg) (s : State) : Result := .next (s.setV x s.dt)

/-- FX0A LD Vx, K: the least pressed key, or the rewind of `pc` when none is pressed (R213). -/
def execLdVxK (x : Reg) (s : State) : Result :=
  match leastKey s.key with
  | some k => .next (s.setV x (keyByte k))
  | none => .next s.rewind

/-- FX15 LD DT, Vx (R214). -/
def execLdDtVx (x : Reg) (s : State) : Result := .next (s.setDt (s.getV x))

/-- FX18 LD ST, Vx: raises no sound alert itself (R215). -/
def execLdStVx (x : Reg) (s : State) : Result := .next (s.setSt (s.getV x))

end Sys2Proof.Machine
end

