-- ==== Sys2Proof/Machine/Screen.lean ====
section
/-! DEFINITION. The display instructions 00E0 and DXYN (44_display.md). -/

namespace Sys2Proof.Machine

/-- 00E0 CLS: all cells false; VF is not written (R190). -/
def execCls (s : State) : Result := .next (s.setDisp Display.clear)

/-- DXYN DRW Vx, Vy, n: the sprite's bytes are checked and read first, the coordinates are read before VF is written, and
VF receives the collision last (R191). -/
def execDrw (x y : Reg) (n : Nat) (s : State) : Result :=
  match s.mem.readBlock s.base n with
  | .ok rows =>
    let r := drawSprite (s.getV x).toNat (s.getV y).toNat rows (s.disp, false)
    .next ((s.setDisp r.1).setFlag r.2)
  | .error f => raise f

end Sys2Proof.Machine
end

