-- ==== Sys2Proof/Machine/Step.lean ====
section
/-! DEFINITION. One Step (30_encoding.md R81): fetch, decode, advance, execute. -/

namespace Sys2Proof.Machine

/-- Step behind the host's interface (R81): a fault at fetch, decode or execute ends it, in that order (60_exceptions.md
R237). The interface passes no input, so the byte `r` is the next free value (log entry 1); Step with its input, as R5 has it,
is stepWith (Machine/StepInput.lean). -/
def step (s : State) : Host.Outcome State Fault Refusal :=
  match s.fetchDecode with
  | .error f => raise f
  | .ok i => exec i s.advance

/-- The state with the word `w` (its low `nbits` bits) stored where step fetches its next instruction, high byte first:
at `pc`, or, where no word can be fetched at `pc` (R71), at START_ADDRESS with `pc` set there (log entry 4). -/
def State.withFetchWord (s : State) (nbits w : Nat) : State :=
  let op : Word := BitVec.ofNat 16 (w % 2 ^ nbits)
  let p : Word := if blockFits s.pc.toNat 2 then s.pc else BitVec.ofNat 16 Config.startAddress
  { s with mem := s.mem.pokes p.toNat [highByte op, lowByte op], pc := p }

end Sys2Proof.Machine
end

