-- ==== Sys2Proof/Machine/HostOps.lean ====
section
/-! DEFINITION. The five operations the host performs on the core (00_scope.md R5): Reset, Load, TimerStep, KeySet,
DisplayRead. The sixth operation, Step, is Sys2Proof.Machine.stepWith. -/

namespace Sys2Proof.Machine

/-- A timer counts down by one and stops at 0 (R27, R242). -/
def countDown (b : Byte) : Byte := if b = 0 then 0 else b - 1

/-- TimerStep: both timers count down; the Boolean is the sound alert, true iff `ST` was 1 (R242, R243). -/
def timerStep (s : State) : State × Bool :=
  ((s.setDt (countDown s.dt)).setSt (countDown s.st), s.st == 1)

/-- KeySet: one latch written, or `InvalidKeyIndex` for an index above 15 (R245). -/
def keySet (index : Nat) (pressed : Bool) (s : State) : Result :=
  if h : index < 16 then .next { s with key := s.key.set index pressed } else raise .invalidKeyIndex

/-- DisplayRead: the 2048 cells as they stand, row-major; it changes nothing (R246). -/
def displayRead (s : State) : List Bool := (List.finRange 2048).map s.disp.cell

/-- Load: the bytes from 0x200 up, or `RomTooLarge` and no byte (R272, R273). Nothing else changes (R274). -/
def load (bytes : List Byte) (s : State) : Result :=
  if bytes.length > Config.maxRom then raise .romTooLarge
  else .next (s.setMem (s.mem.pokes Config.startAddress bytes))

/-- Memory after Reset for a given FONT: its 80 bytes at 0 to 79, zero above (R65, R270). -/
def Memory.ofFont (fnt : Vector Byte 80) : Memory := Memory.pokes [] 0 fnt.toList

/-- The default FONT (R65; log entry 2). -/
def defaultFont : Vector Byte 80 := ⟨font.toArray, by decide⟩

/-- Reset, for the machine's parameter FONT: every item of R20 at its value of R33 (R270). The count of draws is the
model's own and goes on: Reset restarts no sequence of random bytes (91_not_in_source.md N15; log entry 1). -/
def hostReset (fnt : Vector Byte 80) (s : State) : State :=
  { State.reset with mem := Memory.ofFont fnt, draws := s.draws }

end Sys2Proof.Machine
end

