-- ==== Sys2Proof/Machine/StepInput.lean ====
section
/-! DEFINITION. `Step(r)` with the drawn byte as its input (00_scope.md R5, R8; 30_encoding.md R81). It has no generator: it
neither reads nor writes the model's own count of draws (10_state.md R32). -/

namespace Sys2Proof.Machine

/-- An instruction executed in a Step whose drawn byte is `r`: only CXNN reads it (R8, R151). -/
def execWith (r : Byte) (i : Instr) (s : State) : Result :=
  match i with
  | .rnd x nn => .next (rndWith r x nn s)
  | other => exec other s

/-- `Step(r)` (R81). -/
def stepWith (r : Byte) (s : State) : Result :=
  match s.fetchDecode with
  | .error f => raise f
  | .ok i => execWith r i s.advance

end Sys2Proof.Machine
end

