-- ==== Sys2Proof/Machine/History.lean ====
section
/-! DEFINITION. The six operations as one alphabet, each atomic, in any order the host chooses (00_scope.md R5, R6). -/

namespace Sys2Proof.Machine

/-- The operations of the machine with their inputs (R5); `r` is the byte that Step is given, any byte at all (R8, R32). -/
inductive Op where
  | reset
  | load (bytes : List Byte)
  | step (r : Byte)
  | timerStep
  | keySet (index : Nat) (pressed : Bool)
  | displayRead
  deriving DecidableEq, Repr

/-- What an operation that succeeds hands to the host (R5, the Outputs column). -/
inductive Output where
  | none
  | alert (b : Bool)
  | cells (d : List Bool)
  deriving DecidableEq, Repr

/-- The outcome of an operation as the host sees it (R9). -/
inductive OpOutcome where
  | ok (out : Output)
  | fault (f : Fault)
  | refused (r : Refusal)
  deriving DecidableEq, Repr

/-- The outcome's code for a host that wants a number: 0 for Ok, else the fault's (92_eei_decisions.md D5); none for a
refusal, which no operation of this model gives. -/
def OpOutcome.code (o : OpOutcome) : Option Nat :=
  match o with
  | .ok _ => some 0
  | .fault f => some f.code
  | .refused _ => none

/-- An operation that can fail, as the host sees it: the state after it and its outcome (R9, R238). -/
def settle (s : State) (r : Result) : State × OpOutcome :=
  (stateAfter s r, match r with
    | .next _ => .ok .none
    | .fault f => .fault f
    | .refused e => .refused e)

/-- One operation on the machine whose FONT parameter is `fnt`: the state after it and the outcome (R5). -/
def perform (fnt : Vector Byte 80) (op : Op) (s : State) : State × OpOutcome :=
  match op with
  | .reset => (hostReset fnt s, .ok .none)
  | .load bytes => settle s (load bytes s)
  | .step r => settle s (stepWith r s)
  | .timerStep => ((timerStep s).1, .ok (.alert (timerStep s).2))
  | .keySet index pressed => settle s (keySet index pressed s)
  | .displayRead => (s, .ok (.cells (displayRead s)))

/-- A history: operations performed one after the other, faults included, since the machine after a fault accepts any
further operation (R6, R239). Two histories from one state may differ in the bytes `r` alone (R32). -/
def runOps (fnt : Vector Byte 80) (ops : List Op) (s : State) : State :=
  match ops with
  | [] => s
  | op :: ops => runOps fnt ops (perform fnt op s).1

end Sys2Proof.Machine
end

