-- ==== Sys2Proof/Safety.lean ====
section
/-! DEFINITION. The terms that claims are stated in: what an operation leaves unchanged, who writes what, where `pc` goes,
which fault an instruction raises, and the invariant of reachable states. -/

namespace Sys2Proof.Machine

/-- The items of state a claim can name: those of R20 (SP with the stack), and the model's own count of draws. -/
inductive Item where
  | mem | pc | regs | index | stack | dt | st | key | disp | draws
  deriving DecidableEq, Repr

/-- An item reads the same in `t` as in `s`; memory and display are compared by reading every byte and every cell. -/
def Unchanged (s t : State) (item : Item) : Prop :=
  match item with
  | .mem => ∀ a, t.mem.peek a = s.mem.peek a
  | .pc => t.pc = s.pc
  | .regs => ∀ r, t.getV r = s.getV r
  | .index => t.i = s.i
  | .stack => t.sp = s.sp ∧ ∀ k : Fin 16, t.stack[k.val] = s.stack[k.val]
  | .dt => t.dt = s.dt
  | .st => t.st = s.st
  | .key => ∀ k : Fin 16, t.key[k.val] = s.key[k.val]
  | .disp => ∀ c, t.disp.cell c = s.disp.cell c
  | .draws => t.draws = s.draws

/-- Every item but those listed reads as before. -/
def OnlyChanges (items : List Item) (s t : State) : Prop := ∀ item, item ∉ items → Unchanged s t item

/-- An outcome whose next state, if there is one, has this count of draws; the count is the model's own (log entry 1). -/
def withDraws (n : Nat) (r : Result) : Result :=
  match r with
  | .next t => .next { t with draws := n }
  | .fault f => .fault f
  | .refused e => .refused e

/-- Every V register but those listed reads as before. -/
def OnlyRegs (xs : List Reg) (s t : State) : Prop := ∀ r, r ∉ xs → t.getV r = s.getV r

/-- Every byte outside the `n` bytes from `a` reads as before. -/
def OnlyBytes (a n : Nat) (s t : State) : Prop := ∀ b, ¬ (a ≤ b ∧ b < a + n) → t.mem.peek b = s.mem.peek b

/-- The instruction word `op` stands at `pc`, both bytes inside memory, high byte first (R71). -/
def State.wordAt (s : State) (op : Word) : Prop :=
  s.pc.toNat + 1 ≤ 4095 ∧ s.mem.peek s.pc.toNat = highByte op ∧ s.mem.peek (s.pc.toNat + 1) = lowByte op

/-- The access matrix (R34): the items an instruction may write, besides the fetch advance of `pc`. -/
def itemsWritten (i : Instr) : List Item :=
  match i with
  | .nop => []
  | .cls => [.disp]
  | .ret => [.pc, .stack]
  | .jp _ => [.pc]
  | .call _ => [.pc, .stack]
  | .seImm _ _ => [.pc]
  | .sneImm _ _ => [.pc]
  | .seReg _ _ => [.pc]
  | .ldImm _ _ => [.regs]
  | .addImm _ _ => [.regs]
  | .ldReg _ _ => [.regs]
  | .orReg _ _ => [.regs]
  | .andReg _ _ => [.regs]
  | .xorReg _ _ => [.regs]
  | .addReg _ _ => [.regs]
  | .sub _ _ => [.regs]
  | .shr _ _ => [.regs]
  | .subn _ _ => [.regs]
  | .shl _ _ => [.regs]
  | .sneReg _ _ => [.pc]
  | .ldI _ => [.index]
  | .jpV0 _ => [.pc]
  | .rnd _ _ => [.regs, .draws]
  | .drw _ _ _ => [.regs, .disp]
  | .skp _ => [.pc]
  | .sknp _ => [.pc]
  | .ldVxDt _ => [.regs]
  | .ldVxK _ => [.regs, .pc]
  | .ldDtVx _ => [.dt]
  | .ldStVx _ => [.st]
  | .addI _ => [.index]
  | .ldF _ => [.index]
  | .ldB _ => [.mem]
  | .ldMemVx _ => [.mem]
  | .ldVxMem _ => [.regs]

/-- The V registers an instruction may write: its destination, and VF where the table of R22 says so. -/
def mayWriteReg (i : Instr) (r : Reg) : Prop :=
  match i with
  | .ldImm x _ => r = x
  | .addImm x _ => r = x
  | .ldReg x _ => r = x
  | .orReg x _ => r = x
  | .andReg x _ => r = x
  | .xorReg x _ => r = x
  | .addReg x _ => r = x ∨ r = vf
  | .sub x _ => r = x ∨ r = vf
  | .shr x _ => r = x ∨ r = vf
  | .subn x _ => r = x ∨ r = vf
  | .shl x _ => r = x ∨ r = vf
  | .rnd x _ => r = x
  | .drw _ _ _ => r = vf
  | .ldVxDt x => r = x
  | .ldVxK x => r = x
  | .ldVxMem x => r ≤ x
  | .nop | .cls | .ret | .jp _ | .call _ | .seImm _ _ | .sneImm _ _ | .seReg _ _ | .sneReg _ _ | .ldI _ | .jpV0 _ | .skp _
  | .sknp _ | .ldDtVx _ | .ldStVx _ | .addI _ | .ldF _ | .ldB _ | .ldMemVx _ => False

/-- The fault an instruction raises when it is executed in `s`, and exactly when (R233 to R237); the 27 others raise none. -/
def faultOf (i : Instr) (s : State) : Option Fault :=
  match i with
  | .ret => if s.sp.val = 0 then some .stackUnderflow else none
  | .call _ => if s.sp.val = 16 then some .stackOverflow else none
  | .ldB _ => if s.i.toNat + 2 > 4095 then some .memoryOutOfBounds else none
  | .ldMemVx x => if s.i.toNat + x.val > 4095 then some .memoryOutOfBounds else none
  | .ldVxMem x => if s.i.toNat + x.val > 4095 then some .memoryOutOfBounds else none
  | .drw _ _ n => if n > 0 ∧ s.i.toNat + n - 1 > 4095 then some .memoryOutOfBounds else none
  | .skp x => if (s.getV x).toNat > 15 then some .invalidKeyIndex else none
  | .sknp x => if (s.getV x).toNat > 15 then some .invalidKeyIndex else none
  | .nop | .cls | .jp _ | .seImm _ _ | .sneImm _ _ | .seReg _ _ | .ldImm _ _ | .addImm _ _ | .ldReg _ _ | .orReg _ _
  | .andReg _ _ | .xorReg _ _ | .addReg _ _ | .sub _ _ | .shr _ _ | .subn _ _ | .shl _ _ | .sneReg _ _ | .ldI _ | .jpV0 _
  | .rnd _ _ | .ldVxDt _ | .ldVxK _ | .ldDtVx _ | .ldStVx _ | .addI _ | .ldF _ => none

/-- How a Step that succeeds leaves `pc` (the table of R24): `s` is the state before the Step and `p` its `pc`. -/
def pcAfter (i : Instr) (s : State) (p : Word) : Word :=
  match i with
  | .jp nnn => nnn
  | .call nnn => nnn
  | .ret => if h : 0 < s.sp.val then s.stack[s.sp.val - 1]'(by omega) else p
  | .jpV0 nnn => BitVec.ofNat 16 ((s.getV 0).toNat + nnn.toNat)
  | .seImm x nn => if s.getV x = nn then p + 4 else p + 2
  | .sneImm x nn => if s.getV x ≠ nn then p + 4 else p + 2
  | .seReg x y => if s.getV x = s.getV y then p + 4 else p + 2
  | .sneReg x y => if s.getV x ≠ s.getV y then p + 4 else p + 2
  | .skp x => if ∃ k : Fin 16, k.val = (s.getV x).toNat ∧ s.key[k.val] = true then p + 4 else p + 2
  | .sknp x => if ∃ k : Fin 16, k.val = (s.getV x).toNat ∧ s.key[k.val] = false then p + 4 else p + 2
  | .ldVxK _ => if ∃ k : Fin 16, s.key[k.val] = true then p + 2 else p
  | .nop | .cls | .ldImm _ _ | .addImm _ _ | .ldReg _ _ | .orReg _ _ | .andReg _ _ | .xorReg _ _ | .addReg _ _ | .sub _ _
  | .shr _ _ | .subn _ _ | .shl _ _ | .ldI _ | .rnd _ _ | .drw _ _ _ | .ldVxDt _ | .ldDtVx _ | .ldStVx _ | .addI _ | .ldF _
  | .ldB _ | .ldMemVx _ | .ldVxMem _ => p + 2

/-- Sprite pixel at cell (`cx`, `cy`): some bit of some row of the sprite that starts at (`x0`, `y0`) is set and lies, each
coordinate reduced modulo the screen size, on that cell (R191, R193). -/
def spriteCovers (m : Memory) (base n x0 y0 cx cy : Nat) : Prop :=
  ∃ row col, row < n ∧ col < 8 ∧ (m.peek (base + row)).getLsbD (7 - col) = true ∧
    (x0 + col) % 64 = cx ∧ (y0 + row) % 32 = cy

/-- `n` TimerSteps in a row: the state after them and the alerts they raised, in order (R242). -/
def timerSteps (n : Nat) (s : State) : State × List Bool :=
  match n with
  | 0 => (s, [])
  | n + 1 =>
    let r := timerSteps n s
    ((timerStep r.1).1, r.2 ++ [(timerStep r.1).2])

/-- A call-stack slot is 0 (never written) or a value some 2NNN pushed, and a live one was pushed (R35). -/
def StackSane (s : State) : Prop :=
  ∀ k : Fin 16, (s.stack[k.val] = 0 ∨ (2 ≤ s.stack[k.val].toNat ∧ s.stack[k.val].toNat ≤ 0x1000)) ∧
    (k.val < s.sp.val → s.stack[k.val] ≠ 0)

/-- What holds of every state between operations, from Reset on, under any sequence of operations (R35), with the
canonical form of memory. `0 <= SP <= 16` is its type. -/
structure State.Inv (s : State) : Prop where
  memory : s.mem.wf
  pcBound : s.pc.toNat ≤ 0x10FE
  stack : StackSane s

end Sys2Proof.Machine
end

