-- ==== Sys2Proof/Certificates/Slice0/Obligations.lean ====
section
/-! DEFINITION. The statements for the provers. In every statement about exec, `s` is the state after the fetch advance, so
`s.pc` is the address of the following instruction (30_encoding.md R81); a frame is written with OnlyChanges, OnlyRegs and
OnlyBytes of Sys2Proof/Safety.lean. -/

open Sys2Proof Sys2Proof.Machine

/-! ## Encoding -/

/-- R83, R72: decoding the bytes of a well-formed instruction, whatever follows them, gives that instruction, every operand
at every value, and leaves what follows. -/
def Obligations.DecodeEncodeRoundTrip : Prop :=
  ∀ (i : Instr) (rest : List Byte), i.wellFormed = true → decode (encodeBytes i ++ rest) = .ok (i, rest)

/-- R83, R78: a decoded instruction is well formed and encodes back to the very word, so each word has one meaning and each
instruction (its ignored Y included) one word. -/
def Obligations.DecodedWordEncodesBack : Prop :=
  ∀ (op : Word) (i : Instr), decodeWord op = .ok i → i.wellFormed = true ∧ encode i = op

/-- R75: the 35 patterns are pairwise disjoint: two rows of the map that fit one word are the same row. -/
def Obligations.OpcodePatternsDisjoint : Prop :=
  opcodeTable.length = 35 ∧
  ∀ (op : Word) (j k : Fin opcodeTable.length), opcodeTable[j].fits op = true → opcodeTable[k].fits op = true → j = k

/-- R76, R73: formats OP0, NNN and XNN. A word is the instruction iff `(op & mask) = match`, with the fields of R72. -/
def Obligations.WordsOfJumpAndImmediateFormats : Prop :=
  ∀ op : Word,
    (decodeWord op = .ok .nop ↔ op = 0x0000) ∧
    (decodeWord op = .ok .cls ↔ op = 0x00E0) ∧
    (decodeWord op = .ok .ret ↔ op = 0x00EE) ∧
    (decodeWord op = .ok (.jp (op &&& 0x0FFF)) ↔ op &&& 0xF000 = 0x1000) ∧
    (decodeWord op = .ok (.call (op &&& 0x0FFF)) ↔ op &&& 0xF000 = 0x2000) ∧
    (decodeWord op = .ok (.seImm (fieldX op) (fieldNN op)) ↔ op &&& 0xF000 = 0x3000) ∧
    (decodeWord op = .ok (.sneImm (fieldX op) (fieldNN op)) ↔ op &&& 0xF000 = 0x4000) ∧
    (decodeWord op = .ok (.ldImm (fieldX op) (fieldNN op)) ↔ op &&& 0xF000 = 0x6000) ∧
    (decodeWord op = .ok (.addImm (fieldX op) (fieldNN op)) ↔ op &&& 0xF000 = 0x7000) ∧
    (decodeWord op = .ok (.ldI (op &&& 0x0FFF)) ↔ op &&& 0xF000 = 0xA000) ∧
    (decodeWord op = .ok (.jpV0 (op &&& 0x0FFF)) ↔ op &&& 0xF000 = 0xB000) ∧
    (decodeWord op = .ok (.rnd (fieldX op) (fieldNN op)) ↔ op &&& 0xF000 = 0xC000)

/-- R76, R73: formats XY and XYN. -/
def Obligations.WordsOfRegisterPairFormats : Prop :=
  ∀ op : Word,
    (decodeWord op = .ok (.seReg (fieldX op) (fieldY op)) ↔ op &&& 0xF00F = 0x5000) ∧
    (decodeWord op = .ok (.ldReg (fieldX op) (fieldY op)) ↔ op &&& 0xF00F = 0x8000) ∧
    (decodeWord op = .ok (.orReg (fieldX op) (fieldY op)) ↔ op &&& 0xF00F = 0x8001) ∧
    (decodeWord op = .ok (.andReg (fieldX op) (fieldY op)) ↔ op &&& 0xF00F = 0x8002) ∧
    (decodeWord op = .ok (.xorReg (fieldX op) (fieldY op)) ↔ op &&& 0xF00F = 0x8003) ∧
    (decodeWord op = .ok (.addReg (fieldX op) (fieldY op)) ↔ op &&& 0xF00F = 0x8004) ∧
    (decodeWord op = .ok (.sub (fieldX op) (fieldY op)) ↔ op &&& 0xF00F = 0x8005) ∧
    (decodeWord op = .ok (.shr (fieldX op) (fieldY op)) ↔ op &&& 0xF00F = 0x8006) ∧
    (decodeWord op = .ok (.subn (fieldX op) (fieldY op)) ↔ op &&& 0xF00F = 0x8007) ∧
    (decodeWord op = .ok (.shl (fieldX op) (fieldY op)) ↔ op &&& 0xF00F = 0x800E) ∧
    (decodeWord op = .ok (.sneReg (fieldX op) (fieldY op)) ↔ op &&& 0xF00F = 0x9000) ∧
    (decodeWord op = .ok (.drw (fieldX op) (fieldY op) (op &&& 0x000F).toNat) ↔ op &&& 0xF000 = 0xD000)

/-- R76, R73: format X. -/
def Obligations.WordsOfSingleRegisterFormat : Prop :=
  ∀ op : Word,
    (decodeWord op = .ok (.skp (fieldX op)) ↔ op &&& 0xF0FF = 0xE09E) ∧
    (decodeWord op = .ok (.sknp (fieldX op)) ↔ op &&& 0xF0FF = 0xE0A1) ∧
    (decodeWord op = .ok (.ldVxDt (fieldX op)) ↔ op &&& 0xF0FF = 0xF007) ∧
    (decodeWord op = .ok (.ldVxK (fieldX op)) ↔ op &&& 0xF0FF = 0xF00A) ∧
    (decodeWord op = .ok (.ldDtVx (fieldX op)) ↔ op &&& 0xF0FF = 0xF015) ∧
    (decodeWord op = .ok (.ldStVx (fieldX op)) ↔ op &&& 0xF0FF = 0xF018) ∧
    (decodeWord op = .ok (.addI (fieldX op)) ↔ op &&& 0xF0FF = 0xF01E) ∧
    (decodeWord op = .ok (.ldF (fieldX op)) ↔ op &&& 0xF0FF = 0xF029) ∧
    (decodeWord op = .ok (.ldB (fieldX op)) ↔ op &&& 0xF0FF = 0xF033) ∧
    (decodeWord op = .ok (.ldMemVx (fieldX op)) ↔ op &&& 0xF0FF = 0xF055) ∧
    (decodeWord op = .ok (.ldVxMem (fieldX op)) ↔ op &&& 0xF0FF = 0xF065)

/-- R77: the words that are not instructions are exactly those of the rule's table, and each is rejected by its own name. -/
def Obligations.UnimplementedWordsExactly : Prop :=
  ∀ op : Word, decodeWord op = .error (.unimplementedOpcode op) ↔
    (op &&& 0xF000 = 0x0000 ∧ op ≠ 0x0000 ∧ op ≠ 0x00E0 ∧ op ≠ 0x00EE) ∨
    (op &&& 0xF000 = 0x5000 ∧ op &&& 0x000F ≠ 0) ∨
    (op &&& 0xF000 = 0x8000 ∧ op &&& 0x000F ∈ ([8, 9, 0xA, 0xB, 0xC, 0xD, 0xF] : List Word)) ∨
    (op &&& 0xF000 = 0x9000 ∧ op &&& 0x000F ≠ 0) ∨
    (op &&& 0xF000 = 0xE000 ∧ op &&& 0x00FF ∉ ([0x9E, 0xA1] : List Word)) ∨
    (op &&& 0xF000 = 0xF000 ∧
      op &&& 0x00FF ∉ ([0x07, 0x0A, 0x15, 0x18, 0x1E, 0x29, 0x33, 0x55, 0x65] : List Word))

/-- 95_test_vectors.md E1, E2, E7, E9: a few words written out from the spec's encodings, one per format, and two that are
no instructions. -/
def Obligations.SampleWordsDecode : Prop :=
  decode [0x12, 0x34] = .ok (.jp 0x234, []) ∧
  decode [0xA2, 0xF0] = .ok (.ldI 0x2F0, []) ∧
  decode [0x3A, 0x42] = .ok (.seImm 0xA 0x42, []) ∧
  decode [0x81, 0x2E] = .ok (.shl 1 2, []) ∧
  decode [0xD0, 0x1F] = .ok (.drw 0 1 15, []) ∧
  decode [0xFF, 0x65] = .ok (.ldVxMem 15, []) ∧
  decode [0x00, 0xE1] = .error (.unimplementedOpcode 0x00E1) ∧
  decode [0x51, 0x21] = .error (.unimplementedOpcode 0x5121)

/-! ## The Step -/

/-- R71, R81: when the two bytes at `pc` lie in memory and decode to `i`, a Step is `i` executed with `pc` advanced by 2 and
nothing else changed by the fetch. -/
def Obligations.StepRunsDecodedInstruction : Prop :=
  ∀ (s : State) (i : Instr), s.pc.toNat + 1 ≤ 4095 →
    decode [s.mem.peek s.pc.toNat, s.mem.peek (s.pc.toNat + 1)] = .ok (i, []) →
    step s = exec i { s with pc := s.pc + 2 }

/-- R71 (the model follows 92_eei_decisions.md D6, a choice of the spec's own; log entry 7): a fetch with `pc` = 0xFFF or
above faults, whatever memory holds. -/
def Obligations.FetchOutsideMemoryFaults : Prop :=
  ∀ s : State, 0xFFF ≤ s.pc.toNat → step s = .fault .memoryOutOfBounds

/-- R237, R232, R233, R81 (two of the cases are choices of the spec's own, which the model follows: that a fetch at 0xFFF or
above faults, 92_eei_decisions.md D6, log entry 7; that a key skip with `V[X]` above 15 faults, D19, log entry 10): a Step
faults exactly in the cases of the spec, in the order fetch, decode, execute. -/
def Obligations.StepFaultsExactly : Prop :=
  ∀ (s : State) (f : Fault), step s = .fault f ↔
    (0xFFF ≤ s.pc.toNat ∧ f = .memoryOutOfBounds) ∨
    (∃ op, s.wordAt op ∧ (∀ i, decodeWord op ≠ .ok i) ∧ f = .unimplementedOpcode op) ∨
    (∃ op i, s.wordAt op ∧ decodeWord op = .ok i ∧ faultOf i s = some f)

/-- R230, R9: every Step ends in a next state or in one of the spec's faults; no Step is refused. -/
def Obligations.StepNeverRefuses : Prop :=
  ∀ s : State, (∃ t, step s = .next t) ∨ (∃ f, step s = .fault f ∧ f ≠ .romTooLarge)

/-- R24: how each Step that succeeds leaves `pc`, by the table of the rule. -/
def Obligations.ProgramCounterAfterStep : Prop :=
  ∀ (s t : State) (op : Word) (i : Instr), s.wordAt op → decodeWord op = .ok i → step s = .next t →
    t.pc = pcAfter i s s.pc

/-- R34, R84, R22: a Step that succeeds changes only `pc` and the items its instruction writes in the access matrix, and of
the V registers only its destination and, for the instructions of R22's table, VF. -/
def Obligations.StepWritesOnlyItsItems : Prop :=
  ∀ (s t : State) (op : Word) (i : Instr), s.wordAt op → decodeWord op = .ok i → step s = .next t →
    OnlyChanges (.pc :: itemsWritten i) s t ∧ ∀ r, ¬ mayWriteReg i r → t.getV r = s.getV r

/-- The fixed name State.withFetchWord: the very next step runs the word that was stored, wherever `pc` stood. -/
def Obligations.FetchWordRunsNext : Prop :=
  ∀ (s : State) (w : Nat) (i : Instr), w < 65536 → decodeTableWord 16 w = some i →
    step (s.withFetchWord 16 w) = exec i (s.withFetchWord 16 w).advance

/-- R282, R102: a jump to its own address is a fixed point of Step. -/
def Obligations.SelfJumpIsFixedPoint : Prop :=
  ∀ s : State, s.pc.toNat + 1 ≤ 4095 → s.wordAt (0x1000 ||| s.pc) → step s = .next s

/-- R213 (95_test_vectors.md S8): a Step of FX0A with no key pressed ends with the whole state unchanged. -/
def Obligations.KeyWaitStepChangesNothing : Prop :=
  ∀ (s : State) (x : Reg), s.wordAt (0xF00A ||| placeX x) → (∀ k : Fin 16, s.key[k.val] = false) → step s = .next s

/-- R61, R53: a store to the address of the next instruction is seen by the very next fetch: after FX55 has put `V[0]`,
`V[1]` there, the next Step runs the word they form, `V[0]` its high byte. -/
def Obligations.StoreSeenByNextFetch : Prop :=
  ∀ (s : State) (x : Reg), 1 ≤ x.val → s.wordAt (0xF055 ||| placeX x) → s.i = s.pc + 2 → s.i.toNat + x.val ≤ 4095 →
    ∃ t, step s = .next t ∧ t.pc = s.pc + 2 ∧ t.wordAt (wordOf (s.getV 0) (s.getV 1)) ∧
      step t = (match decodeWord (wordOf (s.getV 0) (s.getV 1)) with
        | .ok i => exec i t.advance
        | .error e => .fault (rejectFault e))

/-- R283, R77, R100: `n` Steps over memory that reads as zero only advance `pc` by `2 * n`, as far as the last fetchable
word. -/
def Obligations.RunsThroughZeroBytes : Prop :=
  ∀ (n : Nat) (s : State), s.pc.toNat + 2 * n ≤ 0x1000 →
    (∀ a, s.pc.toNat ≤ a → a < s.pc.toNat + 2 * n → s.mem.peek a = 0) →
    Host.Core.run Sys2Proof.core n s = .next { s with pc := s.pc + BitVec.ofNat 16 (2 * n) }

/-- R32, R8: the count of draws reaches no instruction but CXNN: with another count each other instruction does the same to
the rest of the state. -/
def Obligations.DrawsReachOnlyRandom : Prop :=
  ∀ (i : Instr) (s : State) (n : Nat), (∀ x nn, i ≠ .rnd x nn) →
    exec i { s with draws := n } =
      (match exec i s with
        | .next t => .next { t with draws := n }
        | .fault f => .fault f
        | .refused r => .refused r)

/-- R32, R8, R5, R151 (the byte as an input under no law: 92_eei_decisions.md D23, a choice of the spec's own; log entry 1):
`Step(r)` of CXNN completes for every byte `r`, with `V[X]` = `r & NN`; a Step of anything else is the same for every two
bytes; and no Step reads or writes the model's own count of draws, so two Steps from one state differ through `r` alone. -/
def Obligations.StepTakesItsByte : Prop :=
  (∀ (r : Byte) (s : State) (op : Word) (x : Reg) (nn : Byte), s.wordAt op → decodeWord op = .ok (.rnd x nn) →
    ∃ t, stepWith r s = .next t ∧ t.pc = s.pc + 2 ∧ t.getV x = r &&& nn ∧ OnlyRegs [x] s t ∧
      OnlyChanges [.pc, .regs] s t) ∧
  (∀ (r q : Byte) (s : State), (∀ op x nn, s.wordAt op → decodeWord op ≠ .ok (.rnd x nn)) →
    stepWith r s = stepWith q s) ∧
  ∀ (r : Byte) (s : State) (n : Nat), stepWith r { s with draws := n } = withDraws n (stepWith r s)

/-- R81, R8 (the interface passes no byte: log entry 1, the model's own): the Step behind the host's interface is `Step(r)` at
the next free byte, but for the model's own count of draws. -/
def Obligations.StepIsStepAtFreeByte : Prop :=
  ∀ s : State, stepWith (Config.randomByte s.draws) s = withDraws s.draws (step s)

/-! ## Control transfer -/

/-- R100: NOP completes and changes nothing, and only the exact word 0x0000 is NOP. -/
def Obligations.NopChangesNothing : Prop :=
  (∀ s : State, exec .nop s = .next s) ∧ ∀ op : Word, decodeWord op = .ok .nop ↔ op = 0x0000

/-- R102: JP sets `pc` to NNN, odd values and targets outside the program included, and changes nothing else. -/
def Obligations.JumpSetsProgramCounter : Prop :=
  ∀ (nnn : Word) (s : State), ∃ t, exec (.jp nnn) s = .next t ∧ t.pc = nnn ∧ OnlyChanges [.pc] s t

/-- R103, R26 (slot discipline: 92_eei_decisions.md D12, log entry 8): CALL pushes the advanced `pc` and jumps when a slot
is free, and faults when all sixteen are in use. -/
def Obligations.CallPushesReturnAddress : Prop :=
  ∀ (nnn : Word) (s : State),
    (∀ h : s.sp.val < 16, ∃ t, exec (.call nnn) s = .next t ∧ t.pc = nnn ∧ t.sp.val = s.sp.val + 1 ∧
      t.stack[s.sp.val] = s.pc ∧ (∀ k : Fin 16, k.val ≠ s.sp.val → t.stack[k.val] = s.stack[k.val]) ∧
      OnlyChanges [.pc, .stack] s t) ∧
    (s.sp.val = 16 → exec (.call nnn) s = .fault .stackOverflow)

/-- R101, R26 (the popped slot keeps its value: D12, log entry 8): RET pops the newest return address into `pc`, and faults
on an empty stack. -/
def Obligations.ReturnPopsReturnAddress : Prop :=
  ∀ s : State,
    (∀ h : 0 < s.sp.val, ∃ t, exec .ret s = .next t ∧ t.pc = s.stack[s.sp.val - 1]'(by omega) ∧
      t.sp.val = s.sp.val - 1 ∧ (∀ k : Fin 16, t.stack[k.val] = s.stack[k.val]) ∧ OnlyChanges [.pc, .stack] s t) ∧
    (s.sp.val = 0 → exec .ret s = .fault .stackUnderflow)

/-- R103, R101: the RET that matches a CALL resumes at the instruction after the CALL and gives the stack back as it was,
but for the one slot that was free. -/
def Obligations.ReturnUndoesCall : Prop :=
  ∀ (nnn a : Word) (s : State), s.sp.val < 16 →
    ∃ t u, exec (.call nnn) s = .next t ∧ exec .ret (t.setPc a) = .next u ∧ u.pc = s.pc ∧ u.sp = s.sp ∧
      (∀ k : Fin 16, k.val ≠ s.sp.val → u.stack[k.val] = s.stack[k.val]) ∧ OnlyChanges [.stack] s u

/-- R104 (92_eei_decisions.md D9, a choice of the spec's own; log entry 9): BNNN puts `V[0] + NNN` into `pc`, not reduced to
12 bits, always from register 0. -/
def Obligations.ComputedJumpAddsRegisterZero : Prop :=
  ∀ (nnn : Word) (s : State), (Instr.jpV0 nnn).wellFormed = true →
    ∃ t, exec (.jpV0 nnn) s = .next t ∧ t.pc.toNat = (s.getV 0).toNat + nnn.toNat ∧ OnlyChanges [.pc] s t

/-- R120 to R123: the four register skips add 2 to the advanced `pc` exactly when their comparison holds, and write nothing
else. -/
def Obligations.RegisterSkipsMoveProgramCounter : Prop :=
  ∀ (x y : Reg) (nn : Byte) (s : State),
    (∃ t, exec (.seImm x nn) s = .next t ∧ t.pc = (if s.getV x = nn then s.pc + 2 else s.pc) ∧ OnlyChanges [.pc] s t) ∧
    (∃ t, exec (.sneImm x nn) s = .next t ∧ t.pc = (if s.getV x ≠ nn then s.pc + 2 else s.pc) ∧ OnlyChanges [.pc] s t) ∧
    (∃ t, exec (.seReg x y) s = .next t ∧ t.pc = (if s.getV x = s.getV y then s.pc + 2 else s.pc) ∧
      OnlyChanges [.pc] s t) ∧
    (∃ t, exec (.sneReg x y) s = .next t ∧ t.pc = (if s.getV x ≠ s.getV y then s.pc + 2 else s.pc) ∧
      OnlyChanges [.pc] s t)

/-- R210, R211 (an index above 15 faults: 92_eei_decisions.md D19, a choice of the spec's own; log entry 10): the key skips
test the latch that the whole byte `V[X]` names. -/
def Obligations.KeySkipsTestLatch : Prop :=
  ∀ (x : Reg) (s : State),
    (∀ k : Fin 16, k.val = (s.getV x).toNat →
      (∃ t, exec (.skp x) s = .next t ∧ t.pc = (if s.key[k.val] = true then s.pc + 2 else s.pc) ∧
        OnlyChanges [.pc] s t) ∧
      (∃ t, exec (.sknp x) s = .next t ∧ t.pc = (if s.key[k.val] = true then s.pc else s.pc + 2) ∧
        OnlyChanges [.pc] s t)) ∧
    (15 < (s.getV x).toNat →
      exec (.skp x) s = .fault .invalidKeyIndex ∧ exec (.sknp x) s = .fault .invalidKeyIndex)

/-! ## Registers and arithmetic -/

/-- R140, R141, R142: load immediate, add immediate (modulo 256, no flag), copy. VF is written only as a destination. -/
def Obligations.LoadAddCopyIntoRegister : Prop :=
  ∀ (x y : Reg) (nn : Byte) (s : State),
    (∃ t, exec (.ldImm x nn) s = .next t ∧ t.getV x = nn ∧ OnlyRegs [x] s t ∧ OnlyChanges [.regs] s t) ∧
    (∃ t, exec (.addImm x nn) s = .next t ∧ (t.getV x).toNat = ((s.getV x).toNat + nn.toNat) % 256 ∧
      OnlyRegs [x] s t ∧ OnlyChanges [.regs] s t) ∧
    (∃ t, exec (.ldReg x y) s = .next t ∧ t.getV x = s.getV y ∧ OnlyRegs [x] s t ∧ OnlyChanges [.regs] s t)

/-- R143, R144, R145: OR, AND, XOR, bit by bit; VF is not written as a flag. -/
def Obligations.LogicCombinesBitwise : Prop :=
  ∀ (x y : Reg) (s : State),
    (∃ t, exec (.orReg x y) s = .next t ∧
      (∀ k : Fin 8, (t.getV x)[k.val] = ((s.getV x)[k.val] || (s.getV y)[k.val])) ∧
      OnlyRegs [x] s t ∧ OnlyChanges [.regs] s t) ∧
    (∃ t, exec (.andReg x y) s = .next t ∧
      (∀ k : Fin 8, (t.getV x)[k.val] = ((s.getV x)[k.val] && (s.getV y)[k.val])) ∧
      OnlyRegs [x] s t ∧ OnlyChanges [.regs] s t) ∧
    (∃ t, exec (.xorReg x y) s = .next t ∧
      (∀ k : Fin 8, (t.getV x)[k.val] = ((s.getV x)[k.val] ^^ (s.getV y)[k.val])) ∧
      OnlyRegs [x] s t ∧ OnlyChanges [.regs] s t)

/-- R146 (the order of the two writes, seen for X = 0xF only, is also 92_eei_decisions.md D13, a choice of the spec's own):
8XY4 adds modulo 256 and then writes the carry to VF, from operands read before either write; for X = 0xF the sum is lost and
VF is the carry. -/
def Obligations.AddSetsCarry : Prop :=
  ∀ (x y : Reg) (s : State), ∃ t, exec (.addReg x y) s = .next t ∧
    (x ≠ vf → (t.getV x).toNat = ((s.getV x).toNat + (s.getV y).toNat) % 256) ∧
    t.getV vf = (if (s.getV x).toNat + (s.getV y).toNat > 255 then 1 else 0) ∧
    OnlyRegs [x, vf] s t ∧ OnlyChanges [.regs] s t

/-- R147, R149 (the order of the two writes, seen for X = 0xF only, is also 92_eei_decisions.md D13, a choice of the spec's
own): 8XY5 and 8XY7 subtract modulo 256 and then write VF, 0 exactly when a borrow occurred; for X = 0xF the
difference is lost and VF is the flag. -/
def Obligations.SubtractionsSetNoBorrow : Prop :=
  ∀ (x y : Reg) (s : State),
    (∃ t, exec (.sub x y) s = .next t ∧
      (x ≠ vf → (t.getV x).toNat = ((s.getV x).toNat + 256 - (s.getV y).toNat) % 256) ∧
      t.getV vf = (if (s.getV x).toNat < (s.getV y).toNat then 0 else 1) ∧
      OnlyRegs [x, vf] s t ∧ OnlyChanges [.regs] s t) ∧
    (∃ t, exec (.subn x y) s = .next t ∧
      (x ≠ vf → (t.getV x).toNat = ((s.getV y).toNat + 256 - (s.getV x).toNat) % 256) ∧
      t.getV vf = (if (s.getV y).toNat < (s.getV x).toNat then 0 else 1) ∧
      OnlyRegs [x, vf] s t ∧ OnlyChanges [.regs] s t)

/-- R148, R150, R154 (the case X = 0xF follows 92_eei_decisions.md D13, a choice of the spec's own; log entry 6): the shifts
move `V[X]` by one place and put the bit shifted out into VF; Y is ignored; for X = 0xF, VF ends as 0 (8FY6) or as twice its
old bit 7 (8FYE). -/
def Obligations.ShiftsPutOutBit : Prop :=
  ∀ (x y : Reg) (s : State),
    (∃ t, exec (.shr x y) s = .next t ∧
      (x ≠ vf → (t.getV x).toNat = (s.getV x).toNat / 2 ∧ (t.getV vf).toNat = (s.getV x).toNat % 2) ∧
      (x = vf → t.getV vf = 0) ∧ OnlyRegs [x, vf] s t ∧ OnlyChanges [.regs] s t) ∧
    (∃ t, exec (.shl x y) s = .next t ∧
      (x ≠ vf → (t.getV x).toNat = (s.getV x).toNat * 2 % 256 ∧ (t.getV vf).toNat = (s.getV x).toNat / 128) ∧
      (x = vf → (t.getV vf).toNat = 2 * ((s.getV vf).toNat / 128)) ∧ OnlyRegs [x, vf] s t ∧ OnlyChanges [.regs] s t)

/-- R151 (the draw under no law: 92_eei_decisions.md D23; log entry 1): CXNN ANDs NN with the next drawn byte, takes exactly
one draw, and would do so for every value `r` of that byte. -/
def Obligations.RandomMasksDrawnByte : Prop :=
  ∀ (x : Reg) (nn : Byte) (s : State),
    (∃ t, exec (.rnd x nn) s = .next t ∧ t = (rndWith (Config.randomByte s.draws) x nn s).countDraw ∧
      t.getV x = Config.randomByte s.draws &&& nn ∧ t.draws = s.draws + 1 ∧
      OnlyRegs [x] s t ∧ OnlyChanges [.regs, .draws] s t) ∧
    ∀ r : Byte, (rndWith r x nn s).getV x = r &&& nn ∧ (∀ k : Fin 8, nn[k.val] = false →
      ((rndWith r x nn s).getV x)[k.val] = false)

/-! ## Index register and memory -/

/-- R170: ANNN puts NNN into `I`, bits 15:12 zero, and changes nothing else. -/
def Obligations.LoadIndexSetsIndex : Prop :=
  ∀ (nnn : Word) (s : State), (Instr.ldI nnn).wellFormed = true →
    ∃ t, exec (.ldI nnn) s = .next t ∧ t.i = nnn ∧ t.i.toNat < 0x1000 ∧ OnlyChanges [.index] s t

/-- R171, R172 (the 16-bit wrap is 92_eei_decisions.md D10, the whole byte D11, choices of the spec's own; log entry 11):
FX1E adds modulo 65536 and FX29 multiplies by 5; neither writes VF, and neither can fault. -/
def Obligations.IndexArithmetic : Prop :=
  ∀ (x : Reg) (s : State),
    (∃ t, exec (.addI x) s = .next t ∧ t.i.toNat = (s.i.toNat + (s.getV x).toNat) % 65536 ∧ OnlyChanges [.index] s t) ∧
    (∃ t, exec (.ldF x) s = .next t ∧ t.i.toNat = 5 * (s.getV x).toNat ∧ OnlyChanges [.index] s t)

/-- R173: FX33 writes the three decimal digits at `I`, `I+1`, `I+2`, hundreds lowest, when all three addresses are in memory,
and otherwise faults; every byte outside those three reads as before. -/
def Obligations.DecimalDigitsStored : Prop :=
  ∀ (x : Reg) (s : State),
    (s.i.toNat + 2 ≤ 4095 → ∃ t, exec (.ldB x) s = .next t ∧
      (t.mem.peek s.i.toNat).toNat = (s.getV x).toNat / 100 ∧
      (t.mem.peek (s.i.toNat + 1)).toNat = (s.getV x).toNat / 10 % 10 ∧
      (t.mem.peek (s.i.toNat + 2)).toNat = (s.getV x).toNat % 10 ∧
      OnlyBytes s.i.toNat 3 s t ∧ OnlyChanges [.mem] s t) ∧
    (s.i.toNat + 2 > 4095 → exec (.ldB x) s = .fault .memoryOutOfBounds)

/-- R174: FX55 stores `V[0]` to `V[X]` at `I` and up when the last address is in memory, and otherwise faults; `I` keeps its
value and every other byte reads as before. -/
def Obligations.RegistersStoredAtIndex : Prop :=
  ∀ (x : Reg) (s : State),
    (s.i.toNat + x.val ≤ 4095 → ∃ t, exec (.ldMemVx x) s = .next t ∧
      (∀ r : Reg, r ≤ x → t.mem.peek (s.i.toNat + r.val) = s.getV r) ∧
      OnlyBytes s.i.toNat (x.val + 1) s t ∧ OnlyChanges [.mem] s t) ∧
    (s.i.toNat + x.val > 4095 → exec (.ldMemVx x) s = .fault .memoryOutOfBounds)

/-- R175: FX65 loads `V[0]` to `V[X]` from `I` and up when the last address is in memory, and otherwise faults; registers
above X, `I` and memory keep their values. -/
def Obligations.RegistersLoadedFromIndex : Prop :=
  ∀ (x : Reg) (s : State),
    (s.i.toNat + x.val ≤ 4095 → ∃ t, exec (.ldVxMem x) s = .next t ∧
      (∀ r : Reg, r ≤ x → t.getV r = s.mem.peek (s.i.toNat + r.val)) ∧
      (∀ r : Reg, x < r → t.getV r = s.getV r) ∧ OnlyChanges [.regs] s t) ∧
    (s.i.toNat + x.val > 4095 → exec (.ldVxMem x) s = .fault .memoryOutOfBounds)

/-- Equal memories are equal data: two memories in canonical form that read alike at every address are equal. -/
def Obligations.CanonicalMemoryIsUnique : Prop :=
  ∀ m n : Memory, m.wf → n.wf → (∀ a, m.peek a = n.peek a) → m = n

/-! ## Display -/

/-- R190: CLS makes all 2048 cells false and writes nothing else, VF included. -/
def Obligations.ClearScreenClearsEveryCell : Prop :=
  ∀ s : State, ∃ t, exec .cls s = .next t ∧ (∀ c, t.disp.cell c = false) ∧ OnlyChanges [.disp] s t

/-- R191, R193, R195 (per-pixel wrap D15, bit order D16, N = 0 D17 of 92_eei_decisions.md, choices of the spec's own; log
entries 3 and 12): DRW toggles exactly the cells the sprite covers and sets VF to 1 exactly when one of them was lit; it
faults exactly when N > 0 and a sprite byte lies outside memory. -/
def Obligations.DrawTogglesCoveredCells : Prop :=
  ∀ (x y : Reg) (n : Nat) (s : State), n ≤ 15 →
    (n = 0 ∨ s.i.toNat + n - 1 ≤ 4095 → ∃ t, exec (.drw x y n) s = .next t ∧
      (∀ c : Fin 2048,
        (spriteCovers s.mem s.i.toNat n (s.getV x).toNat (s.getV y).toNat (c.val % 64) (c.val / 64) →
          t.disp.cell c = !s.disp.cell c) ∧
        (¬ spriteCovers s.mem s.i.toNat n (s.getV x).toNat (s.getV y).toNat (c.val % 64) (c.val / 64) →
          t.disp.cell c = s.disp.cell c)) ∧
      ((∃ c : Fin 2048, s.disp.cell c = true ∧
          spriteCovers s.mem s.i.toNat n (s.getV x).toNat (s.getV y).toNat (c.val % 64) (c.val / 64)) →
        t.getV vf = 1) ∧
      ((∀ c : Fin 2048, s.disp.cell c = true →
          ¬ spriteCovers s.mem s.i.toNat n (s.getV x).toNat (s.getV y).toNat (c.val % 64) (c.val / 64)) →
        t.getV vf = 0) ∧
      OnlyRegs [vf] s t ∧ OnlyChanges [.regs, .disp] s t) ∧
    (0 < n ∧ s.i.toNat + n - 1 > 4095 → exec (.drw x y n) s = .fault .memoryOutOfBounds)

/-- R191's pseudocode (per-pixel wrap D15, bit order D16, choices of the spec's own; log entries 3 and 12): drawing the same
sprite twice at the same place restores the display. The clause on VF is THE MODEL'S OWN DEDUCTION from that pseudocode (log
entry 13, DEDUCED) and goes against R191's corner-case sentence `the second draw reports a collision if the sprite has any set
bit`, which fails when every covered cell was lit before: the second draw sets VF exactly when the first one lit a cell, that
is when some covered cell was unlit before. The premise `same place` excludes only that the first draw's VF moved the
coordinates. -/
def Obligations.DrawTwiceRestoresDisplay : Prop :=
  ∀ (x y : Reg) (n : Nat) (s t : State), n ≤ 15 → exec (.drw x y n) s = .next t →
    t.getV x = s.getV x → t.getV y = s.getV y →
    ∃ u, exec (.drw x y n) t = .next u ∧ (∀ c, u.disp.cell c = s.disp.cell c) ∧
      (u.getV vf = 1 ↔ ∃ c : Fin 2048, s.disp.cell c = false ∧
        spriteCovers s.mem s.i.toNat n (s.getV x).toNat (s.getV y).toNat (c.val % 64) (c.val / 64))

/-! ## Keypad and timers -/

/-- R213 (the least pressed key: 92_eei_decisions.md D18, a choice of the spec's own; log entry 14): FX0A writes the least
pressed key's index, or takes `pc` back by 2 when none is pressed. -/
def Obligations.KeyWaitReportsLeastKey : Prop :=
  ∀ (x : Reg) (s : State),
    (∀ k : Fin 16, s.key[k.val] = true → (∀ j : Fin 16, j < k → s.key[j.val] = false) →
      ∃ t, exec (.ldVxK x) s = .next t ∧ (t.getV x).toNat = k.val ∧ OnlyRegs [x] s t ∧ OnlyChanges [.regs] s t) ∧
    ((∀ k : Fin 16, s.key[k.val] = false) →
      ∃ t, exec (.ldVxK x) s = .next t ∧ t.pc = s.pc - 2 ∧ OnlyChanges [.pc] s t)

/-- R212, R214, R215: the timer moves. -/
def Obligations.TimerRegistersMove : Prop :=
  ∀ (x : Reg) (s : State),
    (∃ t, exec (.ldVxDt x) s = .next t ∧ t.getV x = s.dt ∧ OnlyRegs [x] s t ∧ OnlyChanges [.regs] s t) ∧
    (∃ t, exec (.ldDtVx x) s = .next t ∧ t.dt = s.getV x ∧ OnlyChanges [.dt] s t) ∧
    (∃ t, exec (.ldStVx x) s = .next t ∧ t.st = s.getV x ∧ OnlyChanges [.st] s t)

/-- R242: TimerStep decrements each timer by 1 if it is not 0, touches nothing else, and returns the alert, true exactly when
`ST` was 1. -/
def Obligations.TimerStepCountsDown : Prop :=
  ∀ s : State,
    (timerStep s).1.dt.toNat = (if s.dt.toNat > 0 then s.dt.toNat - 1 else 0) ∧
    (timerStep s).1.st.toNat = (if s.st.toNat > 0 then s.st.toNat - 1 else 0) ∧
    ((timerStep s).2 = true ↔ s.st.toNat = 1) ∧ OnlyChanges [.dt, .st] s (timerStep s).1

/-- R27, R243 (the alert's form: 92_eei_decisions.md D25; log entry 5): after `n` TimerSteps each timer is what it was less
`n`, floored at 0, and the alerts are true at the `ST`-th TimerStep and at no other. -/
def Obligations.OneAlertPerCountdown : Prop :=
  ∀ (n : Nat) (s : State),
    (timerSteps n s).1.dt.toNat = s.dt.toNat - n ∧ (timerSteps n s).1.st.toNat = s.st.toNat - n ∧
    (timerSteps n s).2 = (List.range n).map (fun k => decide (s.st.toNat = k + 1)) ∧
    OnlyChanges [.dt, .st] s (timerSteps n s).1

/-- R245 (the fault: 92_eei_decisions.md D20, a choice of the spec's own; log entry 10): KeySet writes the one latch, or
fails for an index above 15. -/
def Obligations.KeySetWritesOneLatch : Prop :=
  ∀ (index : Nat) (pressed : Bool) (s : State),
    (index < 16 → ∃ t, keySet index pressed s = .next t ∧
      (∀ k : Fin 16, t.key[k.val] = (if k.val = index then pressed else s.key[k.val])) ∧ OnlyChanges [.key] s t) ∧
    (index > 15 → keySet index pressed s = .fault .invalidKeyIndex)

/-! ## Host operations, faults, reset -/

/-- R272, R273: Load copies the bytes in order from 0x200 when they fit, and fails with RomTooLarge when there are more than
3584. -/
def Obligations.LoadCopiesImage : Prop :=
  ∀ (bytes : List Byte) (s : State),
    (bytes.length ≤ 3584 → ∃ t, load bytes s = .next t ∧
      ∀ (k : Nat) (h : k < bytes.length), t.mem.peek (0x200 + k) = bytes[k]) ∧
    (bytes.length > 3584 → load bytes s = .fault .romTooLarge)

/-- R274 (92_eei_decisions.md D24, a choice of the spec's own; log entry 15): a Load that succeeds writes the image's bytes
and nothing else. -/
def Obligations.LoadWritesNothingElse : Prop :=
  ∀ (bytes : List Byte) (s t : State), load bytes s = .next t →
    OnlyBytes 0x200 bytes.length s t ∧ OnlyChanges [.mem] s t

/-- R33, R270, R271: after Reset, whatever the state before and whatever the 80 bytes of FONT, every item holds the value of
R33's table. -/
def Obligations.ResetGivesEveryResetValue : Prop :=
  ∀ (fnt : Vector Byte 80) (s : State),
    (∀ a (h : a < 80), (hostReset fnt s).mem.peek a = fnt[a]) ∧
    (∀ a, 80 ≤ a → a ≤ 4095 → (hostReset fnt s).mem.peek a = 0) ∧
    (hostReset fnt s).pc = 0x0200 ∧ (∀ r, (hostReset fnt s).getV r = 0) ∧ (hostReset fnt s).i = 0 ∧
    (∀ k : Fin 16, (hostReset fnt s).stack[k.val] = 0) ∧ (hostReset fnt s).sp.val = 0 ∧
    (hostReset fnt s).dt = 0 ∧ (hostReset fnt s).st = 0 ∧ (∀ k : Fin 16, (hostReset fnt s).key[k.val] = false) ∧
    (∀ c, (hostReset fnt s).disp.cell c = false)

/-- R271, R65 (the default FONT is the spec's general knowledge, D22; log entry 2): Reset with the default FONT gives the
power-on state, but for the model's own count of draws, which goes on (log entry 1). -/
def Obligations.ResetIsPowerOnState : Prop :=
  ∀ s : State, hostReset defaultFont s = { State.reset with draws := s.draws }

/-- R246 (the orientation is 92_eei_decisions.md D14, a choice of the spec's own; log entry 3): DisplayRead gives the 2048
cells row-major (cell `y*64 + x`) and leaves the state as it was. -/
def Obligations.DisplayReadGivesCells : Prop :=
  ∀ (fnt : Vector Byte 80) (s : State),
    (displayRead s).length = 2048 ∧
    (∀ (x y : Nat) (_ : x < 64) (_ : y < 32), (displayRead s)[y * 64 + x]? = some (s.disp[y][x])) ∧
    perform fnt .displayRead s = (s, .ok (.cells (displayRead s)))

/-- R233 to R237: an instruction faults when executed exactly when the spec says so, and with that fault; the 27 others
never do, and none is refused. -/
def Obligations.ExecutionFaultsExactly : Prop :=
  ∀ (i : Instr) (s : State), match faultOf i s with
    | some f => exec i s = .fault f
    | none => ∃ t, exec i s = .next t

/-- R238, R239, R9 (92_eei_decisions.md D3, D4; log entry 7): an operation that faults changes no state; only Step, Load and
KeySet can fault; no operation is refused. -/
def Obligations.FaultingOperationChangesNothing : Prop :=
  ∀ (fnt : Vector Byte 80) (op : Op) (s : State),
    (∀ f, (perform fnt op s).2 = .fault f →
      (perform fnt op s).1 = s ∧ ((∃ r, op = .step r) ∨ (∃ bytes, op = .load bytes) ∨ ∃ k b, op = .keySet k b)) ∧
    (∀ r, (perform fnt op s).2 ≠ .refused r)

/-! ## Invariants -/

/-- R35, R33: the reset state meets the invariant, for every FONT. -/
def Obligations.InvariantAfterReset : Prop :=
  State.reset.Inv ∧ ∀ (fnt : Vector Byte 80) (s : State), (hostReset fnt s).Inv

/-- R35: every Step from a state that meets the invariant (memory in canonical form, `pc` at most 0x10FE, call-stack slots 0
or return addresses, live ones return addresses) gives a state that meets it. -/
def Obligations.StepKeepsInvariant : Prop :=
  ∀ s t : State, s.Inv → step s = .next t → t.Inv

/-- R35, R6: every history of the six operations, in any order, with any image, keys and FONT, keeps the invariant. -/
def Obligations.EveryHistoryKeepsInvariant : Prop :=
  ∀ (fnt : Vector Byte 80) (ops : List Op) (s : State), s.Inv → (runOps fnt ops s).Inv
end

