-- ==== Sys2Proof/Laws/Decode.lean ====
section
/-! SUPPORT. Words and fields: what the fields of an encoded word are, format by format (30_encoding.md R72, R73, R83), and
the bytes of a word. -/

namespace Sys2Proof

/-! ### Bits -/

theorem getElem_of_and_eq_zero (p m : Word) (h : p &&& m = 0) (i : Nat) (hi : i < 16) (hm : m[i] = true) :
    p[i] = false := by
  have := congrArg (fun w : Word => w[i]) h
  simpa [hm] using this

theorem testBit_of_lt_sixteen (n i : Nat) (hn : n < 16) (hi : 4 ≤ i) : n.testBit i = false :=
  Nat.testBit_lt_two_pow (lt_of_lt_of_le hn (Nat.pow_le_pow_right (n := 2) (by omega) hi))

theorem getLsbD_placeX (x : Reg) (i : Nat) :
    (placeX x).getLsbD i = (decide (8 ≤ i) && decide (i < 12) && x.val.testBit (i - 8)) := by
  simp only [placeX, BitVec.getLsbD_shiftLeft, BitVec.getLsbD_ofNat]
  by_cases h1 : 8 ≤ i
  · by_cases h2 : i < 12
    · have h3 : i < 16 := by omega
      have h4 : ¬ i < 8 := by omega
      have h5 : i - 8 < 16 := by omega
      simp [h1, h2, h3, h4, h5]
    · simp [testBit_of_lt_sixteen x.val (i - 8) x.isLt (by omega)]
  · have : i < 8 := by omega
    simp [this, h1]

theorem getLsbD_placeY (y : Reg) (i : Nat) :
    (placeY y).getLsbD i = (decide (4 ≤ i) && decide (i < 8) && y.val.testBit (i - 4)) := by
  simp only [placeY, BitVec.getLsbD_shiftLeft, BitVec.getLsbD_ofNat]
  by_cases h1 : 4 ≤ i
  · by_cases h2 : i < 8
    · have h3 : i < 16 := by omega
      have h4 : ¬ i < 4 := by omega
      have h5 : i - 4 < 16 := by omega
      simp [h1, h2, h3, h4, h5]
    · simp [testBit_of_lt_sixteen y.val (i - 4) y.isLt (by omega)]
  · have : i < 4 := by omega
    simp [this, h1]

theorem fieldX_of_bits (op : Word) (x : Reg) (h : op.extractLsb 11 8 = BitVec.ofNat 4 x.val) : fieldX op = x := by
  have hx := x.isLt
  apply Fin.ext
  simp [fieldX, h]

theorem fieldY_of_bits (op : Word) (y : Reg) (h : op.extractLsb 7 4 = BitVec.ofNat 4 y.val) : fieldY op = y := by
  have hy := y.isLt
  apply Fin.ext
  simp [fieldY, h]

theorem testBit_fieldX (op : Word) (k : Nat) (hk : k < 4) : (fieldX op).val.testBit k = op.getLsbD (8 + k) := by
  have : (fieldX op).val = (op.extractLsb 11 8).toNat := rfl
  rw [this, BitVec.testBit_toNat, BitVec.getLsbD_extractLsb]
  simp; omega

theorem testBit_fieldY (op : Word) (k : Nat) (hk : k < 4) : (fieldY op).val.testBit k = op.getLsbD (4 + k) := by
  have : (fieldY op).val = (op.extractLsb 7 4).toNat := rfl
  rw [this, BitVec.testBit_toNat, BitVec.getLsbD_extractLsb]
  simp; omega

/-! ### Format X -/

theorem encodeX_mask (p : Word) (x : Reg) (hp : p &&& 0x0F00 = 0) : encodeX p x &&& 0xF0FF = p := by
  have hb := getElem_of_and_eq_zero p 0x0F00 hp
  apply BitVec.eq_of_getLsbD_eq
  intro i hi
  simp only [encodeX, BitVec.getLsbD_and, BitVec.getLsbD_or, getLsbD_placeX]
  interval_cases i <;> simp [hb]

theorem encodeX_fieldX (p : Word) (x : Reg) (hp : p &&& 0x0F00 = 0) : fieldX (encodeX p x) = x := by
  have hb := getElem_of_and_eq_zero p 0x0F00 hp
  apply fieldX_of_bits
  apply BitVec.eq_of_getLsbD_eq
  intro i hi
  simp only [encodeX, BitVec.getLsbD_extractLsb, BitVec.getLsbD_or, getLsbD_placeX, BitVec.getLsbD_ofNat]
  interval_cases i <;> simp [hb]

/-! ### Format XY -/

theorem encodeXY_mask (p : Word) (x y : Reg) (hp : p &&& 0x0FF0 = 0) : encodeXY p x y &&& 0xF00F = p := by
  have hb := getElem_of_and_eq_zero p 0x0FF0 hp
  apply BitVec.eq_of_getLsbD_eq
  intro i hi
  simp only [encodeXY, BitVec.getLsbD_and, BitVec.getLsbD_or, getLsbD_placeX, getLsbD_placeY]
  interval_cases i <;> simp [hb]

theorem encodeXY_fieldX (p : Word) (x y : Reg) (hp : p &&& 0x0FF0 = 0) : fieldX (encodeXY p x y) = x := by
  have hb := getElem_of_and_eq_zero p 0x0FF0 hp
  apply fieldX_of_bits
  apply BitVec.eq_of_getLsbD_eq
  intro i hi
  simp only [encodeXY, BitVec.getLsbD_extractLsb, BitVec.getLsbD_or, getLsbD_placeX, getLsbD_placeY, BitVec.getLsbD_ofNat]
  interval_cases i <;> simp [hb]

theorem encodeXY_fieldY (p : Word) (x y : Reg) (hp : p &&& 0x0FF0 = 0) : fieldY (encodeXY p x y) = y := by
  have hb := getElem_of_and_eq_zero p 0x0FF0 hp
  apply fieldY_of_bits
  apply BitVec.eq_of_getLsbD_eq
  intro i hi
  simp only [encodeXY, BitVec.getLsbD_extractLsb, BitVec.getLsbD_or, getLsbD_placeX, getLsbD_placeY, BitVec.getLsbD_ofNat]
  interval_cases i <;> simp [hb]

/-! ### Format XYN -/

theorem encodeXYN_mask (p : Word) (x y : Reg) (n : Nat) (hp : p &&& 0x0FFF = 0) (hn : n ≤ 15) :
    encodeXYN p x y n &&& 0xF000 = p := by
  have hb := getElem_of_and_eq_zero p 0x0FFF hp
  have ht := testBit_of_lt_sixteen n
  apply BitVec.eq_of_getLsbD_eq
  intro i hi
  simp only [encodeXYN, BitVec.getLsbD_and, BitVec.getLsbD_or, getLsbD_placeX, getLsbD_placeY, BitVec.getLsbD_ofNat]
  interval_cases i <;> simp [hb, ht _ (Nat.lt_succ_of_le hn)]

theorem encodeXYN_fieldX (p : Word) (x y : Reg) (n : Nat) (hp : p &&& 0x0FFF = 0) (hn : n ≤ 15) :
    fieldX (encodeXYN p x y n) = x := by
  have hb := getElem_of_and_eq_zero p 0x0FFF hp
  have ht := testBit_of_lt_sixteen n
  apply fieldX_of_bits
  apply BitVec.eq_of_getLsbD_eq
  intro i hi
  simp only [encodeXYN, BitVec.getLsbD_extractLsb, BitVec.getLsbD_or, getLsbD_placeX, getLsbD_placeY, BitVec.getLsbD_ofNat]
  interval_cases i <;> simp [hb, ht _ (Nat.lt_succ_of_le hn)]

theorem encodeXYN_fieldY (p : Word) (x y : Reg) (n : Nat) (hp : p &&& 0x0FFF = 0) (hn : n ≤ 15) :
    fieldY (encodeXYN p x y n) = y := by
  have hb := getElem_of_and_eq_zero p 0x0FFF hp
  have ht := testBit_of_lt_sixteen n
  apply fieldY_of_bits
  apply BitVec.eq_of_getLsbD_eq
  intro i hi
  simp only [encodeXYN, BitVec.getLsbD_extractLsb, BitVec.getLsbD_or, getLsbD_placeX, getLsbD_placeY, BitVec.getLsbD_ofNat]
  interval_cases i <;> simp [hb, ht _ (Nat.lt_succ_of_le hn)]

theorem encodeXYN_fieldN (p : Word) (x y : Reg) (n : Nat) (hp : p &&& 0x0FFF = 0) (hn : n ≤ 15) :
    fieldN (encodeXYN p x y n) = n := by
  have hb := getElem_of_and_eq_zero p 0x0FFF hp
  have h : (encodeXYN p x y n).extractLsb 3 0 = BitVec.ofNat 4 n := by
    apply BitVec.eq_of_getLsbD_eq
    intro i hi
    simp only [encodeXYN, BitVec.getLsbD_extractLsb, BitVec.getLsbD_or, getLsbD_placeX, getLsbD_placeY, BitVec.getLsbD_ofNat]
    interval_cases i <;> simp [hb]
  rw [fieldN, h]
  simp; omega

/-! ### Format XNN -/

theorem encodeXNN_mask (p : Word) (x : Reg) (nn : Byte) (hp : p &&& 0x0FFF = 0) : encodeXNN p x nn &&& 0xF000 = p := by
  have hb := getElem_of_and_eq_zero p 0x0FFF hp
  apply BitVec.eq_of_getLsbD_eq
  intro i hi
  simp only [encodeXNN, BitVec.getLsbD_and, BitVec.getLsbD_or, getLsbD_placeX, BitVec.getLsbD_setWidth]
  interval_cases i <;> simp [hb]

theorem encodeXNN_fieldX (p : Word) (x : Reg) (nn : Byte) (hp : p &&& 0x0FFF = 0) : fieldX (encodeXNN p x nn) = x := by
  have hb := getElem_of_and_eq_zero p 0x0FFF hp
  apply fieldX_of_bits
  apply BitVec.eq_of_getLsbD_eq
  intro i hi
  simp only [encodeXNN, BitVec.getLsbD_extractLsb, BitVec.getLsbD_or, getLsbD_placeX, BitVec.getLsbD_setWidth,
    BitVec.getLsbD_ofNat]
  interval_cases i <;> simp [hb]

theorem encodeXNN_fieldNN (p : Word) (x : Reg) (nn : Byte) (hp : p &&& 0x0FFF = 0) : fieldNN (encodeXNN p x nn) = nn := by
  have hb := getElem_of_and_eq_zero p 0x0FFF hp
  apply BitVec.eq_of_getLsbD_eq
  intro i hi
  simp only [fieldNN, encodeXNN, BitVec.getLsbD_extractLsb, BitVec.getLsbD_or, getLsbD_placeX, BitVec.getLsbD_setWidth]
  interval_cases i <;> simp [hb]

/-! ### Format NNN -/

theorem getElem_of_addrFits (nnn : Word) (h : addrFits nnn = true) (i : Nat) (hi : i < 16) (h12 : 12 ≤ i) :
    nnn[i] = false := by
  have hn : nnn.toNat < 4096 := by simpa [addrFits] using h
  have : nnn.toNat.testBit i = false :=
    Nat.testBit_lt_two_pow (lt_of_lt_of_le hn (Nat.pow_le_pow_right (n := 2) (by omega) h12))
  simpa [BitVec.getElem_eq_testBit_toNat] using this

theorem encodeNNN_mask (p nnn : Word) (hp : p &&& 0x0FFF = 0) (h : addrFits nnn = true) :
    encodeNNN p nnn &&& 0xF000 = p := by
  have hb := getElem_of_and_eq_zero p 0x0FFF hp
  have ha := getElem_of_addrFits nnn h
  apply BitVec.eq_of_getLsbD_eq
  intro i hi
  simp only [encodeNNN, BitVec.getLsbD_and, BitVec.getLsbD_or]
  interval_cases i <;> simp [hb, ha]

theorem encodeNNN_fieldNNN (p nnn : Word) (hp : p &&& 0x0FFF = 0) (h : addrFits nnn = true) :
    fieldNNN (encodeNNN p nnn) = nnn := by
  have hb := getElem_of_and_eq_zero p 0x0FFF hp
  have ha := getElem_of_addrFits nnn h
  apply BitVec.eq_of_getLsbD_eq
  intro i hi
  simp only [fieldNNN, encodeNNN, BitVec.getLsbD_setWidth, BitVec.getLsbD_extractLsb, BitVec.getLsbD_or]
  interval_cases i <;> simp [hb, ha]

/-! ### A word from its fields

A word that fits the pattern of a format is the encoding of its own fields (R83). -/

theorem encodeX_of_fields (p op : Word) (h : op &&& 0xF0FF = p) :
    encodeX p (fieldX op) = op := by
  subst h
  apply BitVec.eq_of_getLsbD_eq
  intro i hi
  simp only [encodeX, BitVec.getLsbD_or, getLsbD_placeX, BitVec.getLsbD_and]
  interval_cases i <;> simp [testBit_fieldX, -BitVec.getLsbD_eq_getElem, -Nat.testBit_zero]

theorem encodeXY_of_fields (p op : Word) (h : op &&& 0xF00F = p) :
    encodeXY p (fieldX op) (fieldY op) = op := by
  subst h
  apply BitVec.eq_of_getLsbD_eq
  intro i hi
  simp only [encodeXY, BitVec.getLsbD_or, getLsbD_placeX, getLsbD_placeY, BitVec.getLsbD_and]
  interval_cases i <;> simp [testBit_fieldX, testBit_fieldY, -BitVec.getLsbD_eq_getElem, -Nat.testBit_zero]

theorem encodeXNN_of_fields (p op : Word) (h : op &&& 0xF000 = p) :
    encodeXNN p (fieldX op) (fieldNN op) = op := by
  subst h
  apply BitVec.eq_of_getLsbD_eq
  intro i hi
  simp only [encodeXNN, BitVec.getLsbD_or, getLsbD_placeX, fieldNN, BitVec.getLsbD_and,
    BitVec.getLsbD_setWidth, BitVec.getLsbD_extractLsb]
  interval_cases i <;> simp [testBit_fieldX, -BitVec.getLsbD_eq_getElem, -Nat.testBit_zero]

theorem encodeNNN_of_fields (p op : Word) (h : op &&& 0xF000 = p) :
    encodeNNN p (fieldNNN op) = op := by
  subst h
  apply BitVec.eq_of_getLsbD_eq
  intro i hi
  simp only [encodeNNN, BitVec.getLsbD_or, fieldNNN, BitVec.getLsbD_and,
    BitVec.getLsbD_setWidth, BitVec.getLsbD_extractLsb]
  interval_cases i <;> simp [-BitVec.getLsbD_eq_getElem, -Nat.testBit_zero]

theorem encodeXYN_of_fields (p op : Word) (h : op &&& 0xF000 = p) :
    encodeXYN p (fieldX op) (fieldY op) (fieldN op) = op := by
  subst h
  apply BitVec.eq_of_getLsbD_eq
  intro i hi
  simp only [encodeXYN, BitVec.getLsbD_or, getLsbD_placeX, getLsbD_placeY, fieldN, BitVec.getLsbD_and,
    BitVec.getLsbD_ofNat, BitVec.testBit_toNat, BitVec.getLsbD_extractLsb]
  interval_cases i <;> simp [testBit_fieldX, testBit_fieldY, -BitVec.getLsbD_eq_getElem, -Nat.testBit_zero]

/-! ### Field ranges and bytes -/

theorem fieldN_le (op : Word) : fieldN op ≤ 15 := by
  have := (op.extractLsb 3 0).isLt
  simp only [fieldN]; omega

theorem addrFits_fieldNNN (op : Word) : addrFits (fieldNNN op) = true := by
  have h := (op.extractLsb 11 0).isLt
  simp only [addrFits, fieldNNN, BitVec.toNat_setWidth, decide_eq_true_eq]
  omega

/-- A word is the word of its two bytes (R71). -/
theorem wordOf_bytes (op : Word) : wordOf (highByte op) (lowByte op) = op := by
  apply BitVec.eq_of_getLsbD_eq
  intro i hi
  simp only [wordOf, highByte, lowByte, BitVec.getLsbD_append, BitVec.getLsbD_extractLsb]
  interval_cases i <;> simp

theorem highByte_wordOf (hi lo : Byte) : highByte (wordOf hi lo) = hi := by
  apply BitVec.eq_of_getLsbD_eq
  intro i h
  simp only [wordOf, highByte, BitVec.getLsbD_append, BitVec.getLsbD_extractLsb]
  interval_cases i <;> simp

theorem lowByte_wordOf (hi lo : Byte) : lowByte (wordOf hi lo) = lo := by
  apply BitVec.eq_of_getLsbD_eq
  intro i h
  simp only [wordOf, lowByte, BitVec.getLsbD_append, BitVec.getLsbD_extractLsb]
  interval_cases i <;> simp

/-- The decoder on two bytes or more decodes the word of the first two (R71). -/
theorem decode_cons (hi lo : Byte) (rest : List Byte) :
    decode (hi :: lo :: rest) = match decodeWord (wordOf hi lo) with
      | .ok i => .ok (i, rest)
      | .error e => .error e := rfl

/-- What a decoded word came from: a row of the opcode map that fits it (R76). -/
theorem decodeWord_eq_ok (op : Word) (i : Instr) (h : decodeWord op = .ok i) :
    ∃ r ∈ opcodeTable, r.fits op = true ∧ i = r.build op := by
  unfold decodeWord at h
  split at h
  · rename_i r hr
    exact ⟨r, List.mem_of_find?_eq_some hr, by simpa using List.find?_some hr, by injection h with h; exact h.symm⟩
  · cases h

/-- The decoder rejects a word by its own name only, and only when no row fits it (R77). -/
theorem decodeWord_eq_error (op : Word) (e : Reject) :
    decodeWord op = .error e ↔ e = .unimplementedOpcode op ∧ ∀ r ∈ opcodeTable, r.fits op = false := by
  unfold decodeWord
  split
  · rename_i r hr
    have h1 := List.mem_of_find?_eq_some hr
    have h2 : r.fits op = true := by simpa using List.find?_some hr
    constructor
    · intro h; cases h
    · rintro ⟨_, h⟩; rw [h r h1] at h2; cases h2
  · rename_i hr
    rw [List.find?_eq_none] at hr
    constructor
    · intro h; injection h with h; exact ⟨h.symm, fun r hm => by simpa using hr r hm⟩
    · rintro ⟨rfl, _⟩; rfl

end Sys2Proof
end

