-- ==== Sys2Proof/Laws/Display.lean ====
section
/-! SUPPORT. The display: a cell read after a cell write, and what drawing a sprite does to every cell and to the hit flag. -/

namespace Sys2Proof.Machine

/-! ### Cells -/

@[simp] theorem Display.cell_setCell (d : Display) (c e : Fin 2048) (b : Bool) :
    (d.setCell c b).cell e = if e = c then b else d.cell e := by
  have hc := c.isLt
  have he := e.isLt
  unfold Display.cell Display.setCell
  by_cases hrow : c.val / 64 = e.val / 64
  · by_cases hcol : c.val % 64 = e.val % 64
    · have : e = c := Fin.ext (by omega)
      subst this; simp
    · have : e ≠ c := fun h => hcol (by rw [h])
      simp [hrow, hcol, this]
  · have : e ≠ c := fun h => hrow (by rw [h])
    simp [hrow, this]

@[simp] theorem Display.cell_clear (c : Fin 2048) : Display.clear.cell c = false := by
  simp [Display.clear, Display.cell]

/-- Two displays that read alike in every cell are equal. -/
theorem Display.ext_cell (d e : Display) (h : ∀ c, d.cell c = e.cell c) : d = e := by
  apply Vector.ext; intro r hr
  apply Vector.ext; intro q hq
  have := h ⟨r * 64 + q, by omega⟩
  have h1 : (r * 64 + q) / 64 = r := by omega
  have h2 : (r * 64 + q) % 64 = q := by omega
  simpa only [Display.cell, h1, h2] using this

theorem cellAt_eq_iff (x y : Nat) (c : Fin 2048) : cellAt x y = c ↔ x % 64 = c.val % 64 ∧ y % 32 = c.val / 64 := by
  have hc := c.isLt
  rw [Fin.ext_iff]
  simp only [cellAt, Config.screenWidth, Config.screenHeight]
  omega

/-! ### Drawing

`covers ps c` counts, over a list of pixels (set or not, column, row), whether one that is set lies on cell `c`. -/

/-- The pixels of a sprite row, leftmost first (R193). -/
def rowPixels (b : Byte) (x0 y : Nat) : List (Bool × Nat × Nat) :=
  (List.range 8).map (fun col => (spriteBit b col, x0 + col, y))

/-- The pixels of a whole sprite, top row first (R191). -/
def spritePixels (x0 y : Nat) (rows : List Byte) : List (Bool × Nat × Nat) :=
  match rows with
  | [] => []
  | b :: bs => rowPixels b x0 y ++ spritePixels x0 (y + 1) bs

/-- A run of pixels drawn one after the other. -/
def drawPixels (ps : List (Bool × Nat × Nat)) (acc : Display × Bool) : Display × Bool :=
  ps.foldl (fun acc p => drawPixel p.1 p.2.1 p.2.2 acc) acc

/-- Drawing a sprite is drawing its pixels in order. -/
theorem drawSprite_eq_drawPixels (x0 y : Nat) (rows : List Byte) (acc : Display × Bool) :
    drawSprite x0 y rows acc = drawPixels (spritePixels x0 y rows) acc := by
  induction rows generalizing y acc with
  | nil => rfl
  | cons b bs ih =>
    rw [drawSprite, ih, spritePixels, drawPixels, drawPixels, List.foldl_append]
    rfl

/-- A set pixel on cell `c`. -/
abbrev hitsCell (c : Fin 2048) (p : Bool × Nat × Nat) : Prop := p.1 = true ∧ cellAt p.2.1 p.2.2 = c

/-- Pixels on pairwise different cells toggle exactly the cells they are set on, and report a hit exactly when one of those
cells was lit (R191). -/
theorem drawPixels_spec (ps : List (Bool × Nat × Nat)) (acc : Display × Bool)
    (hd : ps.Pairwise (fun p q => cellAt p.2.1 p.2.2 ≠ cellAt q.2.1 q.2.2)) :
    (∀ c, (drawPixels ps acc).1.cell c = (acc.1.cell c ^^ decide (∃ p ∈ ps, hitsCell c p))) ∧
      ((drawPixels ps acc).2 = true ↔ acc.2 = true ∨ ∃ c, acc.1.cell c = true ∧ ∃ p ∈ ps, hitsCell c p) := by
  induction ps generalizing acc with
  | nil => simp [drawPixels]
  | cons p ps ih =>
    rw [List.pairwise_cons] at hd
    obtain ⟨hcells, hhit⟩ := ih (drawPixel p.1 p.2.1 p.2.2 acc) hd.2
    have hstep : drawPixels (p :: ps) acc = drawPixels ps (drawPixel p.1 p.2.1 p.2.2 acc) := rfl
    rw [hstep]
    by_cases hb : p.1 = true
    · have hne : ∀ q ∈ ps, ¬ hitsCell (cellAt p.2.1 p.2.2) q := fun q hq hit => hd.1 q hq hit.2.symm
      constructor
      · intro c
        rw [hcells c]
        by_cases hc : c = cellAt p.2.1 p.2.2
        · subst hc
          have h1 : ¬ ∃ q ∈ ps, hitsCell (cellAt p.2.1 p.2.2) q := fun ⟨q, hq, hit⟩ => hne q hq hit
          have h2 : ∃ q ∈ p :: ps, hitsCell (cellAt p.2.1 p.2.2) q := ⟨p, by simp, hb, rfl⟩
          rw [decide_eq_true h2, decide_eq_false h1]
          simp [drawPixel, hb]
        · have h3 : (∃ q ∈ p :: ps, hitsCell c q) ↔ ∃ q ∈ ps, hitsCell c q := by
            simp [hitsCell, hb, Ne.symm hc]
          simp only [h3]
          simp [drawPixel, hb, hc]
      · rw [hhit]
        simp only [drawPixel, hb, if_true, Bool.or_eq_true, Display.cell_setCell, List.mem_cons]
        constructor
        · rintro ((h | h) | ⟨c, hc, q, hq, hit⟩)
          · exact .inl h
          · exact .inr ⟨_, h, p, .inl rfl, hb, rfl⟩
          · have : c ≠ cellAt p.2.1 p.2.2 := fun e => hne q hq (e ▸ hit)
            rw [if_neg this] at hc
            exact .inr ⟨c, hc, q, .inr hq, hit⟩
        · rintro (h | ⟨c, hc, q, rfl | hq, hit⟩)
          · exact .inl (.inl h)
          · exact .inl (.inr (hit.2 ▸ hc))
          · have : c ≠ cellAt p.2.1 p.2.2 := fun e => hne q hq (e ▸ hit)
            exact .inr ⟨c, by rw [if_neg this]; exact hc, q, hq, hit⟩
    · have hb' : p.1 = false := by simpa using hb
      have hsame : ∀ c, (∃ q ∈ p :: ps, hitsCell c q) ↔ ∃ q ∈ ps, hitsCell c q := by
        intro c; simp [hitsCell, hb']
      have hid : drawPixel p.1 p.2.1 p.2.2 acc = acc := by simp [drawPixel, hb']
      rw [hid] at hcells hhit ⊢
      exact ⟨fun c => by rw [hcells c]; simp only [hsame], by rw [hhit]; simp only [hsame]⟩

theorem mem_spritePixels (x0 y : Nat) (rows : List Byte) (p : Bool × Nat × Nat) :
    p ∈ spritePixels x0 y rows ↔ ∃ (r : Nat) (h : r < rows.length) (col : Nat), col < 8 ∧
      p = (spriteBit rows[r] col, x0 + col, y + r) := by
  induction rows generalizing y with
  | nil => simp [spritePixels]
  | cons b bs ih =>
    simp only [spritePixels, List.mem_append, ih, rowPixels, List.mem_map, List.mem_range]
    constructor
    · rintro (⟨col, hcol, rfl⟩ | ⟨r, h, col, hcol, rfl⟩)
      · exact ⟨0, by simp, col, hcol, by simp⟩
      · exact ⟨r + 1, by simpa using h, col, hcol, by simp; omega⟩
    · rintro ⟨r, h, col, hcol, rfl⟩
      cases r with
      | zero => exact .inl ⟨col, hcol, by simp⟩
      | succ r => exact .inr ⟨r, by simpa using h, col, hcol, by simp; omega⟩

/-- The cells of one sprite of at most 32 rows are pairwise different, so no cell is toggled twice (R191). -/
theorem spritePixels_distinct (x0 y : Nat) (rows : List Byte) (h : rows.length ≤ 32) :
    (spritePixels x0 y rows).Pairwise (fun p q => cellAt p.2.1 p.2.2 ≠ cellAt q.2.1 q.2.2) := by
  induction rows generalizing y with
  | nil => simp [spritePixels]
  | cons b bs ih =>
    simp only [List.length_cons] at h
    rw [spritePixels, List.pairwise_append]
    refine ⟨?_, ih (y + 1) (by omega), ?_⟩
    · rw [rowPixels, List.pairwise_map]
      refine List.Pairwise.imp_of_mem ?_ List.pairwise_lt_range
      intro i j hi hj hij e
      rw [cellAt_eq_iff] at e
      simp only [cellAt, Config.screenWidth, Config.screenHeight, List.mem_range] at e hi hj
      omega
    · intro p hp q hq e
      simp only [rowPixels, List.mem_map, List.mem_range] at hp
      obtain ⟨col, hcol, rfl⟩ := hp
      obtain ⟨r, hr, col', hcol', rfl⟩ := (mem_spritePixels x0 (y + 1) bs q).1 hq
      rw [cellAt_eq_iff] at e
      simp only [cellAt, Config.screenWidth, Config.screenHeight] at e
      omega

end Sys2Proof.Machine
end

