-- ==== Sys2Proof/Laws/Memory.lean ====
section
/-! SUPPORT. Memory: a read after a write, the canonical form kept by every operation, and what the block operations do. -/

namespace Sys2Proof.Machine

/-! ### Read after write -/

theorem Memory.peek_of_not_listed (m : Memory) (a : Nat) (h : ∀ c ∈ m, c.1 ≠ a) : m.peek a = Memory.resetByte a := by
  induction m with
  | nil => rfl
  | cons c m ih =>
    have hc : a ≠ c.1 := fun e => h c (by simp) e.symm
    simp [Memory.peek, hc, ih (fun d hd => h d (by simp [hd]))]

theorem Memory.peek_filter_ne (m : Memory) (a b : Nat) (h : b ≠ a) :
    Memory.peek (m.filter (fun c => c.1 != a)) b = m.peek b := by
  induction m with
  | nil => rfl
  | cons c m ih =>
    by_cases hc : c.1 = a
    · have hb : b ≠ c.1 := fun e => h (e.trans hc)
      simp [hc, Memory.peek, ih, h]
    · simp [hc, Memory.peek, ih]

theorem Memory.peek_insertCell (m : Memory) (a b : Nat) (v : Byte) (h : ∀ c ∈ m, c.1 ≠ a) :
    Memory.peek (m.insertCell (a, v)) b = if b = a then v else m.peek b := by
  induction m with
  | nil => rfl
  | cons c m ih =>
    have hc : c.1 ≠ a := h c (by simp)
    have ih := ih (fun d hd => h d (by simp [hd]))
    by_cases hlt : a < c.1
    · simp [Memory.insertCell, hlt, Memory.peek]
    · by_cases hb : b = c.1
      · have : b ≠ a := fun e => hc (hb.symm.trans e)
        simp [Memory.insertCell, hlt, Memory.peek, hb, hc]
      · simp [Memory.insertCell, hlt, Memory.peek, hb, ih]

/-- A byte reads as what was last written to it; every other byte reads as before (R56). -/
@[simp] theorem Memory.peek_poke (m : Memory) (a b : Nat) (v : Byte) :
    (m.poke a v).peek b = if b = a then v else m.peek b := by
  have hf : ∀ c ∈ m.filter (fun c => c.1 != a), c.1 ≠ a := by
    intro c hc; simpa using (List.mem_filter.1 hc).2
  unfold Memory.poke
  split
  · rename_i hv
    by_cases hb : b = a
    · subst hb; simp [Memory.peek_of_not_listed _ _ hf, hv]
    · simp [hb, Memory.peek_filter_ne]
  · rw [Memory.peek_insertCell _ _ _ _ hf]
    by_cases hb : b = a
    · simp [hb]
    · simp [hb, Memory.peek_filter_ne]

/-- Consecutive writes: each byte of the block reads as written, every byte outside it as before. -/
theorem Memory.peek_pokes (m : Memory) (a b : Nat) (bs : List Byte) :
    (m.pokes a bs).peek b = if h : a ≤ b ∧ b < a + bs.length then bs[b - a]'(by omega) else m.peek b := by
  induction bs generalizing m a with
  | nil => simp [Memory.pokes]
  | cons v bs ih =>
    rw [Memory.pokes, ih]
    by_cases h1 : a + 1 ≤ b ∧ b < a + 1 + bs.length
    · have h2 : a ≤ b ∧ b < a + (v :: bs).length := by simp; omega
      have h3 : b - a = (b - (a + 1)) + 1 := by omega
      simp only [h1, h2, and_self, ↓reduceDIte, h3, List.getElem_cons_succ]
    · by_cases hb : b = a
      · subst hb; simp
      · have h2 : ¬ (a ≤ b ∧ b < a + (v :: bs).length) := by simp; omega
        simp only [h1, h2, ↓reduceDIte, Memory.peek_poke, hb, if_false]

/-- Byte `k` of a written block, read back. -/
theorem Memory.peek_pokes_inside (m : Memory) (a k : Nat) (bs : List Byte) (h : k < bs.length) :
    (m.pokes a bs).peek (a + k) = bs[k] := by
  rw [Memory.peek_pokes, dif_pos (by omega)]
  simp

/-- A byte outside a written block reads as before. -/
theorem Memory.peek_pokes_outside (m : Memory) (a b : Nat) (bs : List Byte) (h : ¬ (a ≤ b ∧ b < a + bs.length)) :
    (m.pokes a bs).peek b = m.peek b := by
  rw [Memory.peek_pokes, dif_neg h]

/-! ### The canonical form -/

theorem Memory.mem_insertCell (m : Memory) (c d : Host.Cell) : d ∈ m.insertCell c ↔ d = c ∨ d ∈ m := by
  induction m with
  | nil => simp [Memory.insertCell]
  | cons e m ih =>
    by_cases h : c.1 < e.1
    · simp [Memory.insertCell, h]
    · simp [Memory.insertCell, h, ih]; tauto

theorem Memory.pairwise_insertCell (m : Memory) (c : Host.Cell) (hm : m.Pairwise (fun c d => c.1 < d.1))
    (hc : ∀ d ∈ m, d.1 ≠ c.1) : (m.insertCell c).Pairwise (fun c d => c.1 < d.1) := by
  induction m with
  | nil => simp [Memory.insertCell]
  | cons e m ih =>
    rw [List.pairwise_cons] at hm
    by_cases h : c.1 < e.1
    · simp only [Memory.insertCell, h, if_true, List.pairwise_cons, List.mem_cons]
      refine ⟨?_, hm⟩
      rintro d (rfl | hd)
      · exact h
      · exact lt_trans h (hm.1 d hd)
    · have hne : e.1 ≠ c.1 := hc e (by simp)
      simp only [Memory.insertCell, h, if_false, List.pairwise_cons]
      refine ⟨fun d hd => ?_, ih hm.2 (fun d hd => hc d (by simp [hd]))⟩
      rcases (Memory.mem_insertCell m c d).1 hd with rfl | hd
      · omega
      · exact hm.1 d hd

/-- A write inside memory keeps the canonical form. -/
theorem Memory.wf_poke (m : Memory) (a : Nat) (v : Byte) (hm : m.wf) (ha : a < 4096) : (m.poke a v).wf := by
  have hf : ∀ c ∈ m.filter (fun c => c.1 != a), c.1 ≠ a := by
    intro c hc; simpa using (List.mem_filter.1 hc).2
  have hp := hm.1.filter (fun c => c.1 != a)
  unfold Memory.poke
  split
  · exact ⟨hp, fun c hc => hm.2 c (List.mem_filter.1 hc).1⟩
  · rename_i hv
    refine ⟨Memory.pairwise_insertCell _ _ hp hf, fun c hc => ?_⟩
    rcases (Memory.mem_insertCell _ _ c).1 hc with rfl | hc
    · exact ⟨by simpa using ha, hv⟩
    · exact hm.2 c (List.mem_filter.1 hc).1

/-- Consecutive writes inside memory keep the canonical form. -/
theorem Memory.wf_pokes (m : Memory) (a : Nat) (bs : List Byte) (hm : m.wf) (ha : a + bs.length ≤ 4096) :
    (m.pokes a bs).wf := by
  induction bs generalizing m a with
  | nil => exact hm
  | cons v bs ih =>
    simp only [List.length_cons] at ha
    exact ih _ _ (Memory.wf_poke m a v hm (by omega)) (by omega)

theorem Memory.wf_nil : Memory.wf [] := by simp [Memory.wf]

/-! ### The block operations -/

theorem blockFits_iff (a n : Nat) : blockFits a n = true ↔ n = 0 ∨ a + n ≤ 4096 := by
  have e : blockFits a n = (n == 0 || decide (a + (n - 1) < 4096)) := rfl
  rw [e, Bool.or_eq_true, beq_iff_eq, decide_eq_true_iff]
  omega

/-- A block read answers its bytes exactly when the whole range is inside memory, and faults otherwise (R52). -/
theorem Memory.readBlock_eq (m : Memory) (a n : Nat) :
    m.readBlock a n = if n = 0 ∨ a + n ≤ 4096 then .ok ((List.range n).map (fun k => m.peek (a + k)))
      else .error .memoryOutOfBounds := by
  simp only [Memory.readBlock, blockFits_iff]

/-- A block write answers the written memory exactly when the whole range is inside memory, and faults otherwise (R52). -/
theorem Memory.writeBlock_eq (m : Memory) (a : Nat) (bs : List Byte) :
    m.writeBlock a bs = if bs.length = 0 ∨ a + bs.length ≤ 4096 then .ok (m.pokes a bs)
      else .error .memoryOutOfBounds := by
  simp only [Memory.writeBlock, blockFits_iff]

/-- Every memory operation an instruction uses keeps the canonical form. -/
theorem Memory.wf_writeBlock (m m' : Memory) (a : Nat) (bs : List Byte) (hm : m.wf)
    (h : m.writeBlock a bs = .ok m') : m'.wf := by
  rw [Memory.writeBlock_eq] at h
  split at h
  · rename_i hfit
    cases h
    rcases hfit with h0 | hfit
    · rw [List.length_eq_zero_iff.1 h0]; exact hm
    · exact Memory.wf_pokes m a bs hm hfit
  · cases h

end Sys2Proof.Machine
end

