-- ==== Sys2Proof/Laws/Ops.lean ====
section
/-! SUPPORT. What each shared operation can do: the call stack, key indices, register blocks, the flag computations. -/

namespace Sys2Proof.Machine

/-! ### Call stack -/

/-- Push answers exactly when a slot is free, and then writes that slot and counts it (R26). -/
theorem State.push_eq_some (s t : State) (a : Word) :
    s.push a = some t ↔ ∃ h : s.sp.val < 16,
      t = { s with stack := s.stack.set s.sp.val a, sp := ⟨s.sp.val + 1, by omega⟩ } := by
  unfold State.push
  split <;> rename_i h <;> simp [h, eq_comm]

theorem State.push_eq_none (s : State) (a : Word) : s.push a = none ↔ s.sp.val = 16 := by
  have := s.sp.isLt
  unfold State.push
  split <;> simp <;> omega

/-- Pop answers exactly when the stack is not empty, and then gives the newest entry and uncounts it (R26). -/
theorem State.pop_eq_some (s t : State) (a : Word) :
    s.pop = some (a, t) ↔ ∃ h : 0 < s.sp.val,
      a = s.stack[s.sp.val - 1]'(by omega) ∧ t = { s with sp := ⟨s.sp.val - 1, by omega⟩ } := by
  unfold State.pop
  split <;> rename_i h <;> simp [h, eq_comm]

theorem State.pop_eq_none (s : State) : s.pop = none ↔ s.sp.val = 0 := by
  unfold State.pop
  split <;> simp <;> omega

/-! ### Keys -/

theorem keyIndex_eq_some (b : Byte) (k : Fin 16) : keyIndex b = some k ↔ k.val = b.toNat := by
  unfold keyIndex
  split
  · simp [Fin.ext_iff, eq_comm]
  · have := k.isLt
    simp; omega

theorem keyIndex_eq_none (b : Byte) : keyIndex b = none ↔ 15 < b.toNat := by
  unfold keyIndex
  split <;> simp <;> omega

/-- The least key is pressed, and no key below it is (R213). -/
theorem leastKey_eq_some (key : Vector Bool 16) (k : Fin 16) :
    leastKey key = some k ↔ key[k.val] = true ∧ ∀ j : Fin 16, j < k → key[j.val] = false := by
  unfold leastKey
  rw [List.find?_eq_some_iff_getElem]
  constructor
  · rintro ⟨hk, i, hi, e, hlt⟩
    simp only [List.getElem_finRange, List.length_finRange] at e hi
    refine ⟨hk, fun j hj => ?_⟩
    have hj' : j.val < i := by
      have := Fin.lt_def.1 hj
      rw [← e] at this
      simpa using this
    have := hlt j.val hj'
    simpa using this
  · rintro ⟨hk, hlt⟩
    refine ⟨hk, k.val, by simp, by simp, fun j hj => ?_⟩
    have := hlt ⟨j, by have := k.isLt; omega⟩ (Fin.lt_def.2 hj)
    simpa using this

theorem leastKey_eq_none (key : Vector Bool 16) : leastKey key = none ↔ ∀ k : Fin 16, key[k.val] = false := by
  simp [leastKey, List.find?_eq_none]

theorem keyByte_toNat (k : Fin 16) : (keyByte k).toNat = k.val := by
  have := k.isLt
  simp [keyByte]; omega

/-! ### Register blocks -/

/-- The registers from `k` up take the bytes in order; the others keep their values (R175). -/
theorem setRegs_get (v : Vector Byte 16) (k : Nat) (bs : List Byte) (r : Reg) (hk : k + bs.length ≤ 16) :
    (setRegs v k bs)[r.val] = if h : k ≤ r.val ∧ r.val < k + bs.length then bs[r.val - k]'(by omega) else v[r.val] := by
  induction bs generalizing v k with
  | nil => simp [setRegs]
  | cons b bs ih =>
    simp only [List.length_cons] at hk
    have hkv : (Fin.ofNat 16 k).val = k := Nat.mod_eq_of_lt (by omega)
    rw [setRegs, ih _ _ (by omega)]
    by_cases h1 : k + 1 ≤ r.val ∧ r.val < k + 1 + bs.length
    · have h2 : k ≤ r.val ∧ r.val < k + (b :: bs).length := by simp; omega
      have h3 : r.val - k = (r.val - (k + 1)) + 1 := by omega
      simp only [h1, h2, and_self, ↓reduceDIte, h3, List.getElem_cons_succ]
    · by_cases hr : k = r.val
      · have h2 : k ≤ r.val ∧ r.val < k + (b :: bs).length := by simp; omega
        have h3 : r.val - k = 0 := by omega
        simp only [h1, h2, and_self, ↓reduceDIte, h3, List.getElem_cons_zero]
        simp [hr]
      · have h2 : ¬ (k ≤ r.val ∧ r.val < k + (b :: bs).length) := by simp; omega
        simp only [h1, h2, ↓reduceDIte, Vector.getElem_set, hkv, hr, if_false]

theorem State.loadRegs_getV (s : State) (bs : List Byte) (r : Reg) (h : bs.length ≤ 16) :
    (s.loadRegs bs).getV r = if h : r.val < bs.length then bs[r.val] else s.getV r := by
  have := setRegs_get s.v 0 bs r (by omega)
  simp only [Nat.zero_le, true_and, Nat.zero_add, Nat.sub_zero] at this
  exact this

theorem State.regsUpTo_length (s : State) (x : Reg) : (s.regsUpTo x).length = x.val + 1 := by
  have := x.isLt
  simp [State.regsUpTo]

theorem State.regsUpTo_get (s : State) (x r : Reg) (h : r.val < (s.regsUpTo x).length) :
    (s.regsUpTo x)[r.val] = s.getV r := by
  simp [State.regsUpTo, State.getV]

theorem bcdDigits_length (b : Byte) : (bcdDigits b).length = 3 := rfl

/-! ### Flags -/

/-- The sum modulo 256, and the carry exactly when the sum is over 255 (R146). -/
theorem addCarry_spec (a b : Byte) :
    (addCarry a b).1.toNat = (a.toNat + b.toNat) % 256 ∧ ((addCarry a b).2 = true ↔ 255 < a.toNat + b.toNat) := by
  simp [addCarry]

/-- The difference modulo 256, and the flag exactly when there is no borrow (R147). -/
theorem subNoBorrow_spec (a b : Byte) :
    (subNoBorrow a b).1 = a - b ∧ ((subNoBorrow a b).2 = true ↔ b.toNat ≤ a.toNat) := by
  constructor
  · simp only [subNoBorrow]
    apply BitVec.eq_of_toInt_eq
    rw [BitVec.toInt_ofInt, BitVec.toInt_sub, BitVec.toInt_eq_toNat_bmod, BitVec.toInt_eq_toNat_bmod]
    simp only [Int.sub_bmod_bmod, Int.bmod_sub_bmod]
  · simp [subNoBorrow]

/-! ### Timers -/

theorem countDown_toNat (b : Byte) : (countDown b).toNat = b.toNat - 1 := by
  unfold countDown
  split
  · rename_i h; simp [h]
  · rename_i h
    have : b.toNat ≠ 0 := fun e => h (BitVec.eq_of_toNat_eq (by simpa using e))
    have := b.isLt
    have h1 : (1 : Byte).toNat = 1 := rfl
    rw [BitVec.toNat_sub, h1]
    omega

end Sys2Proof.Machine
end

