-- ==== Sys2Proof/Laws/PerInstr.lean ====
section
/-! SUPPORT. The laws stated per instruction. Family OwnRow: a well-formed instruction's word fits a row of the opcode map
that carries its mnemonic and builds that very instruction, operands and all (30_encoding.md R76, R83). -/

namespace Sys2Proof

/-- The mnemonic of spec/opcode_table.json. -/
def Instr.mnemonic (i : Instr) : String :=
  match i with
  | .nop => "NOP"
  | .cls => "CLS"
  | .ret => "RET"
  | .jp _ => "JP"
  | .call _ => "CALL"
  | .seImm _ _ => "SE_IMM"
  | .sneImm _ _ => "SNE_IMM"
  | .seReg _ _ => "SE_REG"
  | .ldImm _ _ => "LD_IMM"
  | .addImm _ _ => "ADD_IMM"
  | .ldReg _ _ => "LD_REG"
  | .orReg _ _ => "OR"
  | .andReg _ _ => "AND"
  | .xorReg _ _ => "XOR"
  | .addReg _ _ => "ADD_REG"
  | .sub _ _ => "SUB"
  | .shr _ _ => "SHR"
  | .subn _ _ => "SUBN"
  | .shl _ _ => "SHL"
  | .sneReg _ _ => "SNE_REG"
  | .ldI _ => "LD_I"
  | .jpV0 _ => "JP_V0"
  | .rnd _ _ => "RND"
  | .drw _ _ _ => "DRW"
  | .skp _ => "SKP"
  | .sknp _ => "SKNP"
  | .ldVxDt _ => "LD_VX_DT"
  | .ldVxK _ => "LD_VX_K"
  | .ldDtVx _ => "LD_DT_VX"
  | .ldStVx _ => "LD_ST_VX"
  | .addI _ => "ADD_I"
  | .ldF _ => "LD_F"
  | .ldB _ => "LD_B"
  | .ldMemVx _ => "LD_MEM_VX"
  | .ldVxMem _ => "LD_VX_MEM"

/-- The instruction's own row: it is in the map, fits the instruction's word and builds the instruction from it. -/
def Laws.OwnRow.Statement (i : Instr) : Prop :=
  i.wellFormed = true → ∃ r ∈ opcodeTable, r.mnemonic = i.mnemonic ∧ r.fits (encode i) = true ∧ r.build (encode i) = i

theorem Laws.OwnRow.nop : Laws.OwnRow.Statement .nop :=
  fun _ => ⟨opcodeTable[0], List.getElem_mem _, rfl, rfl, rfl⟩

theorem Laws.OwnRow.cls : Laws.OwnRow.Statement .cls :=
  fun _ => ⟨opcodeTable[1], List.getElem_mem _, rfl, rfl, rfl⟩

theorem Laws.OwnRow.ret : Laws.OwnRow.Statement .ret :=
  fun _ => ⟨opcodeTable[2], List.getElem_mem _, rfl, rfl, rfl⟩

theorem Laws.OwnRow.jp (nnn : Word) : Laws.OwnRow.Statement (.jp nnn) :=
  fun h => ⟨opcodeTable[3], List.getElem_mem _, rfl, beq_iff_eq.2 (encodeNNN_mask 0x1000 nnn rfl h),
    congrArg Instr.jp (encodeNNN_fieldNNN 0x1000 nnn rfl h)⟩

theorem Laws.OwnRow.call (nnn : Word) : Laws.OwnRow.Statement (.call nnn) :=
  fun h => ⟨opcodeTable[4], List.getElem_mem _, rfl, beq_iff_eq.2 (encodeNNN_mask 0x2000 nnn rfl h),
    congrArg Instr.call (encodeNNN_fieldNNN 0x2000 nnn rfl h)⟩

theorem Laws.OwnRow.seImm (x : Reg) (nn : Byte) : Laws.OwnRow.Statement (.seImm x nn) :=
  fun _ => ⟨opcodeTable[5], List.getElem_mem _, rfl, beq_iff_eq.2 (encodeXNN_mask 0x3000 x nn rfl),
    congr (congrArg Instr.seImm (encodeXNN_fieldX 0x3000 x nn rfl))
      (encodeXNN_fieldNN 0x3000 x nn rfl)⟩

theorem Laws.OwnRow.sneImm (x : Reg) (nn : Byte) : Laws.OwnRow.Statement (.sneImm x nn) :=
  fun _ => ⟨opcodeTable[6], List.getElem_mem _, rfl, beq_iff_eq.2 (encodeXNN_mask 0x4000 x nn rfl),
    congr (congrArg Instr.sneImm (encodeXNN_fieldX 0x4000 x nn rfl))
      (encodeXNN_fieldNN 0x4000 x nn rfl)⟩

theorem Laws.OwnRow.seReg (x y : Reg) : Laws.OwnRow.Statement (.seReg x y) :=
  fun _ => ⟨opcodeTable[7], List.getElem_mem _, rfl, beq_iff_eq.2 (encodeXY_mask 0x5000 x y rfl),
    congr (congrArg Instr.seReg (encodeXY_fieldX 0x5000 x y rfl))
      (encodeXY_fieldY 0x5000 x y rfl)⟩

theorem Laws.OwnRow.ldImm (x : Reg) (nn : Byte) : Laws.OwnRow.Statement (.ldImm x nn) :=
  fun _ => ⟨opcodeTable[8], List.getElem_mem _, rfl, beq_iff_eq.2 (encodeXNN_mask 0x6000 x nn rfl),
    congr (congrArg Instr.ldImm (encodeXNN_fieldX 0x6000 x nn rfl))
      (encodeXNN_fieldNN 0x6000 x nn rfl)⟩

theorem Laws.OwnRow.addImm (x : Reg) (nn : Byte) : Laws.OwnRow.Statement (.addImm x nn) :=
  fun _ => ⟨opcodeTable[9], List.getElem_mem _, rfl, beq_iff_eq.2 (encodeXNN_mask 0x7000 x nn rfl),
    congr (congrArg Instr.addImm (encodeXNN_fieldX 0x7000 x nn rfl))
      (encodeXNN_fieldNN 0x7000 x nn rfl)⟩

theorem Laws.OwnRow.ldReg (x y : Reg) : Laws.OwnRow.Statement (.ldReg x y) :=
  fun _ => ⟨opcodeTable[10], List.getElem_mem _, rfl, beq_iff_eq.2 (encodeXY_mask 0x8000 x y rfl),
    congr (congrArg Instr.ldReg (encodeXY_fieldX 0x8000 x y rfl))
      (encodeXY_fieldY 0x8000 x y rfl)⟩

theorem Laws.OwnRow.orReg (x y : Reg) : Laws.OwnRow.Statement (.orReg x y) :=
  fun _ => ⟨opcodeTable[11], List.getElem_mem _, rfl, beq_iff_eq.2 (encodeXY_mask 0x8001 x y rfl),
    congr (congrArg Instr.orReg (encodeXY_fieldX 0x8001 x y rfl))
      (encodeXY_fieldY 0x8001 x y rfl)⟩

theorem Laws.OwnRow.andReg (x y : Reg) : Laws.OwnRow.Statement (.andReg x y) :=
  fun _ => ⟨opcodeTable[12], List.getElem_mem _, rfl, beq_iff_eq.2 (encodeXY_mask 0x8002 x y rfl),
    congr (congrArg Instr.andReg (encodeXY_fieldX 0x8002 x y rfl))
      (encodeXY_fieldY 0x8002 x y rfl)⟩

theorem Laws.OwnRow.xorReg (x y : Reg) : Laws.OwnRow.Statement (.xorReg x y) :=
  fun _ => ⟨opcodeTable[13], List.getElem_mem _, rfl, beq_iff_eq.2 (encodeXY_mask 0x8003 x y rfl),
    congr (congrArg Instr.xorReg (encodeXY_fieldX 0x8003 x y rfl))
      (encodeXY_fieldY 0x8003 x y rfl)⟩

theorem Laws.OwnRow.addReg (x y : Reg) : Laws.OwnRow.Statement (.addReg x y) :=
  fun _ => ⟨opcodeTable[14], List.getElem_mem _, rfl, beq_iff_eq.2 (encodeXY_mask 0x8004 x y rfl),
    congr (congrArg Instr.addReg (encodeXY_fieldX 0x8004 x y rfl))
      (encodeXY_fieldY 0x8004 x y rfl)⟩

theorem Laws.OwnRow.sub (x y : Reg) : Laws.OwnRow.Statement (.sub x y) :=
  fun _ => ⟨opcodeTable[15], List.getElem_mem _, rfl, beq_iff_eq.2 (encodeXY_mask 0x8005 x y rfl),
    congr (congrArg Instr.sub (encodeXY_fieldX 0x8005 x y rfl))
      (encodeXY_fieldY 0x8005 x y rfl)⟩

theorem Laws.OwnRow.shr (x y : Reg) : Laws.OwnRow.Statement (.shr x y) :=
  fun _ => ⟨opcodeTable[16], List.getElem_mem _, rfl, beq_iff_eq.2 (encodeXY_mask 0x8006 x y rfl),
    congr (congrArg Instr.shr (encodeXY_fieldX 0x8006 x y rfl))
      (encodeXY_fieldY 0x8006 x y rfl)⟩

theorem Laws.OwnRow.subn (x y : Reg) : Laws.OwnRow.Statement (.subn x y) :=
  fun _ => ⟨opcodeTable[17], List.getElem_mem _, rfl, beq_iff_eq.2 (encodeXY_mask 0x8007 x y rfl),
    congr (congrArg Instr.subn (encodeXY_fieldX 0x8007 x y rfl))
      (encodeXY_fieldY 0x8007 x y rfl)⟩

theorem Laws.OwnRow.shl (x y : Reg) : Laws.OwnRow.Statement (.shl x y) :=
  fun _ => ⟨opcodeTable[18], List.getElem_mem _, rfl, beq_iff_eq.2 (encodeXY_mask 0x800E x y rfl),
    congr (congrArg Instr.shl (encodeXY_fieldX 0x800E x y rfl))
      (encodeXY_fieldY 0x800E x y rfl)⟩

theorem Laws.OwnRow.sneReg (x y : Reg) : Laws.OwnRow.Statement (.sneReg x y) :=
  fun _ => ⟨opcodeTable[19], List.getElem_mem _, rfl, beq_iff_eq.2 (encodeXY_mask 0x9000 x y rfl),
    congr (congrArg Instr.sneReg (encodeXY_fieldX 0x9000 x y rfl))
      (encodeXY_fieldY 0x9000 x y rfl)⟩

theorem Laws.OwnRow.ldI (nnn : Word) : Laws.OwnRow.Statement (.ldI nnn) :=
  fun h => ⟨opcodeTable[20], List.getElem_mem _, rfl, beq_iff_eq.2 (encodeNNN_mask 0xA000 nnn rfl h),
    congrArg Instr.ldI (encodeNNN_fieldNNN 0xA000 nnn rfl h)⟩

theorem Laws.OwnRow.jpV0 (nnn : Word) : Laws.OwnRow.Statement (.jpV0 nnn) :=
  fun h => ⟨opcodeTable[21], List.getElem_mem _, rfl, beq_iff_eq.2 (encodeNNN_mask 0xB000 nnn rfl h),
    congrArg Instr.jpV0 (encodeNNN_fieldNNN 0xB000 nnn rfl h)⟩

theorem Laws.OwnRow.rnd (x : Reg) (nn : Byte) : Laws.OwnRow.Statement (.rnd x nn) :=
  fun _ => ⟨opcodeTable[22], List.getElem_mem _, rfl, beq_iff_eq.2 (encodeXNN_mask 0xC000 x nn rfl),
    congr (congrArg Instr.rnd (encodeXNN_fieldX 0xC000 x nn rfl))
      (encodeXNN_fieldNN 0xC000 x nn rfl)⟩

theorem Laws.OwnRow.drw (x y : Reg) (n : Nat) : Laws.OwnRow.Statement (.drw x y n) :=
  fun h => ⟨opcodeTable[23], List.getElem_mem _, rfl, beq_iff_eq.2 (encodeXYN_mask 0xD000 x y n rfl (of_decide_eq_true h)),
    congr (congr (congrArg Instr.drw (encodeXYN_fieldX 0xD000 x y n rfl (of_decide_eq_true h)))
      (encodeXYN_fieldY 0xD000 x y n rfl (of_decide_eq_true h))) (encodeXYN_fieldN 0xD000 x y n rfl (of_decide_eq_true h))⟩

theorem Laws.OwnRow.skp (x : Reg) : Laws.OwnRow.Statement (.skp x) :=
  fun _ => ⟨opcodeTable[24], List.getElem_mem _, rfl, beq_iff_eq.2 (encodeX_mask 0xE09E x rfl),
    congrArg Instr.skp (encodeX_fieldX 0xE09E x rfl)⟩

theorem Laws.OwnRow.sknp (x : Reg) : Laws.OwnRow.Statement (.sknp x) :=
  fun _ => ⟨opcodeTable[25], List.getElem_mem _, rfl, beq_iff_eq.2 (encodeX_mask 0xE0A1 x rfl),
    congrArg Instr.sknp (encodeX_fieldX 0xE0A1 x rfl)⟩

theorem Laws.OwnRow.ldVxDt (x : Reg) : Laws.OwnRow.Statement (.ldVxDt x) :=
  fun _ => ⟨opcodeTable[26], List.getElem_mem _, rfl, beq_iff_eq.2 (encodeX_mask 0xF007 x rfl),
    congrArg Instr.ldVxDt (encodeX_fieldX 0xF007 x rfl)⟩

theorem Laws.OwnRow.ldVxK (x : Reg) : Laws.OwnRow.Statement (.ldVxK x) :=
  fun _ => ⟨opcodeTable[27], List.getElem_mem _, rfl, beq_iff_eq.2 (encodeX_mask 0xF00A x rfl),
    congrArg Instr.ldVxK (encodeX_fieldX 0xF00A x rfl)⟩

theorem Laws.OwnRow.ldDtVx (x : Reg) : Laws.OwnRow.Statement (.ldDtVx x) :=
  fun _ => ⟨opcodeTable[28], List.getElem_mem _, rfl, beq_iff_eq.2 (encodeX_mask 0xF015 x rfl),
    congrArg Instr.ldDtVx (encodeX_fieldX 0xF015 x rfl)⟩

theorem Laws.OwnRow.ldStVx (x : Reg) : Laws.OwnRow.Statement (.ldStVx x) :=
  fun _ => ⟨opcodeTable[29], List.getElem_mem _, rfl, beq_iff_eq.2 (encodeX_mask 0xF018 x rfl),
    congrArg Instr.ldStVx (encodeX_fieldX 0xF018 x rfl)⟩

theorem Laws.OwnRow.addI (x : Reg) : Laws.OwnRow.Statement (.addI x) :=
  fun _ => ⟨opcodeTable[30], List.getElem_mem _, rfl, beq_iff_eq.2 (encodeX_mask 0xF01E x rfl),
    congrArg Instr.addI (encodeX_fieldX 0xF01E x rfl)⟩

theorem Laws.OwnRow.ldF (x : Reg) : Laws.OwnRow.Statement (.ldF x) :=
  fun _ => ⟨opcodeTable[31], List.getElem_mem _, rfl, beq_iff_eq.2 (encodeX_mask 0xF029 x rfl),
    congrArg Instr.ldF (encodeX_fieldX 0xF029 x rfl)⟩

theorem Laws.OwnRow.ldB (x : Reg) : Laws.OwnRow.Statement (.ldB x) :=
  fun _ => ⟨opcodeTable[32], List.getElem_mem _, rfl, beq_iff_eq.2 (encodeX_mask 0xF033 x rfl),
    congrArg Instr.ldB (encodeX_fieldX 0xF033 x rfl)⟩

theorem Laws.OwnRow.ldMemVx (x : Reg) : Laws.OwnRow.Statement (.ldMemVx x) :=
  fun _ => ⟨opcodeTable[33], List.getElem_mem _, rfl, beq_iff_eq.2 (encodeX_mask 0xF055 x rfl),
    congrArg Instr.ldMemVx (encodeX_fieldX 0xF055 x rfl)⟩

theorem Laws.OwnRow.ldVxMem (x : Reg) : Laws.OwnRow.Statement (.ldVxMem x) :=
  fun _ => ⟨opcodeTable[34], List.getElem_mem _, rfl, beq_iff_eq.2 (encodeX_mask 0xF065 x rfl),
    congrArg Instr.ldVxMem (encodeX_fieldX 0xF065 x rfl)⟩

end Sys2Proof
end

