-- ==== Sys2Proof/Laws/Step.lean ====
section
/-! SUPPORT. Fetch and decode, the store through `I`, both Steps from the word at `pc`, and runs of the core one Step at a
time. -/

namespace Sys2Proof.Machine

/-- Fetch answers the two bytes at `pc` exactly when both lie in memory (R71). -/
theorem State.fetch_eq (s : State) :
    s.fetch = if s.pc.toNat + 1 ≤ 4095 then .ok [s.mem.peek s.pc.toNat, s.mem.peek (s.pc.toNat + 1)]
      else .error .memoryOutOfBounds := by
  rw [State.fetch, Memory.readBlock_eq]
  by_cases h : s.pc.toNat + 1 ≤ 4095
  · rw [if_pos h, if_pos (.inr (by omega))]; rfl
  · rw [if_neg h, if_neg (by omega)]

/-- Where a word can be fetched, one stands there. -/
theorem State.wordAt_self (s : State) (h : s.pc.toNat + 1 ≤ 4095) :
    s.wordAt (wordOf (s.mem.peek s.pc.toNat) (s.mem.peek (s.pc.toNat + 1))) :=
  ⟨h, (highByte_wordOf _ _).symm, (lowByte_wordOf _ _).symm⟩

/-- At most one word stands at `pc`. -/
theorem State.wordAt_unique (s : State) (a b : Word) (h : s.wordAt a) (k : s.wordAt b) : a = b := by
  rw [← wordOf_bytes a, ← wordOf_bytes b, ← h.2.1, ← h.2.2, k.2.1, k.2.2]

/-- Fetch and decode by the word at `pc`: its instruction, or the fault of a word that is none (R81). -/
theorem State.fetchDecode_of_word (s : State) (op : Word) (h : s.wordAt op) : s.fetchDecode = match decodeWord op with
    | .ok i => .ok i
    | .error e => .error (rejectFault e) := by
  obtain ⟨h1, h2, h3⟩ := h
  simp only [State.fetchDecode, State.fetch_eq, h1, if_true, h2, h3, decode_cons, wordOf_bytes]
  cases decodeWord op <;> rfl

/-- Fetch and decode where no word can be fetched (R71). -/
theorem State.fetchDecode_outside (s : State) (h : ¬ s.pc.toNat + 1 ≤ 4095) :
    s.fetchDecode = .error .memoryOutOfBounds := by
  simp only [State.fetchDecode, State.fetch_eq, h, if_false]

/-- A Step by the word at `pc`: its instruction executed after the advance, or the fault of a word that is none (R81). -/
theorem step_of_word (s : State) (op : Word) (h : s.wordAt op) : step s = match decodeWord op with
    | .ok i => exec i s.advance
    | .error e => .fault (rejectFault e) := by
  simp only [step, s.fetchDecode_of_word op h]
  cases decodeWord op <;> rfl

/-- `Step(r)` by the word at `pc` (R81). -/
theorem stepWith_of_word (r : Byte) (s : State) (op : Word) (h : s.wordAt op) : stepWith r s = match decodeWord op with
    | .ok i => execWith r i s.advance
    | .error e => .fault (rejectFault e) := by
  simp only [stepWith, s.fetchDecode_of_word op h]
  cases decodeWord op <;> rfl

/-- CXNN in a Step whose byte is `r` (R151). -/
theorem execWith_rnd (r : Byte) (x : Reg) (nn : Byte) (s : State) : execWith r (.rnd x nn) s = .next (rndWith r x nn s) := rfl

/-- Every other instruction is executed without the byte (R8). -/
theorem execWith_of_not_rnd (r : Byte) (i : Instr) (s : State) (h : ∀ x nn, i ≠ .rnd x nn) : execWith r i s = exec i s := by
  cases i
  case rnd x nn => exact absurd rfl (h x nn)
  all_goals rfl

/-- All that `Step(r)` can do: what the Step without an input does, or, for CXNN, that instruction's effect with `r`. -/
theorem stepWith_cases (r : Byte) (s : State) : stepWith r s = step s ∨
    ∃ x nn, s.fetchDecode = .ok (.rnd x nn) ∧ stepWith r s = .next (rndWith r x nn s.advance) := by
  simp only [stepWith, step]
  cases s.fetchDecode with
  | error f => exact .inl rfl
  | ok i =>
    by_cases h : ∃ x nn, i = .rnd x nn
    · obtain ⟨x, nn, rfl⟩ := h
      exact .inr ⟨x, nn, rfl, rfl⟩
    · exact .inl (execWith_of_not_rnd r i _ fun x nn e => h ⟨x, nn, e⟩)

/-- A store through `I` that fits writes exactly the bytes (R176). -/
theorem storeAtI_next (bytes : List Byte) (s : State) (h : s.i.toNat + bytes.length ≤ 4096) :
    storeAtI bytes s = .next (s.setMem (s.mem.pokes s.i.toNat bytes)) := by
  simp only [storeAtI, State.base, Memory.writeBlock_eq, if_pos (Or.inr h : bytes.length = 0 ∨ _)]

/-- A store through `I` of at least one byte that does not fit faults (R52). -/
theorem storeAtI_fault (bytes : List Byte) (s : State) (h0 : bytes ≠ []) (h : 4096 < s.i.toNat + bytes.length) :
    storeAtI bytes s = .fault .memoryOutOfBounds := by
  have : ¬ (bytes.length = 0 ∨ s.i.toNat + bytes.length ≤ 4096) := by
    rw [List.length_eq_zero_iff]; exact fun e => e.elim h0 (by omega)
  simp only [storeAtI, State.base, Memory.writeBlock_eq, if_neg this, raise]

/-- A run of the core that starts with a Step to a next state goes on from that state. -/
theorem run_succ_of_next (n : Nat) (s t : State) (h : step s = .next t) :
    Host.Core.run Sys2Proof.core (n + 1) s = Host.Core.run Sys2Proof.core n t := by
  have h : Sys2Proof.core.step s = .next t := h
  simp only [Host.Core.run, h]

end Sys2Proof.Machine
end

