-- ==== Sys2Proof/Tests/Slice0.lean ====
section
/-! SUPPORT. Tests: ill-formed terms refused, one word of every constructor written out from the encodings of
spec/30_encoding.md, one-step vectors of spec/95_test_vectors.md (their names stand in the docstrings), and a witness for
the hypotheses of every obligation. -/

namespace Sys2Proof.Tests

open Sys2Proof Sys2Proof.Machine

/-! ### Helpers -/

/-- The outcome is a next state of which `p` holds. -/
def nextWith (r : Result) (p : State → Bool) : Bool :=
  match r with
  | .next t => p t
  | .fault _ => false
  | .refused _ => false

/-- The outcome is this fault. -/
def faultsWith (r : Result) (f : Fault) : Bool :=
  match r with
  | .next _ => false
  | .fault g => g == f
  | .refused _ => false

/-- The reset state with `image` loaded at 0x200 and the given registers. -/
def start (image : List Byte) (regs : List (Reg × Byte)) : State :=
  regs.foldl (fun s p => s.setV p.1 p.2) (State.reset.setMem (Memory.pokes [] 0x200 image))

/-- The same with the index register set. -/
def startI (image : List Byte) (regs : List (Reg × Byte)) (a : Word) : State := (start image regs).setI a

/-- A display with just these cells lit. -/
def litCells (cells : List (Fin 2048)) : Display := cells.foldl (fun d c => d.setCell c true) Display.clear

theorem nextWith_elim {r : Result} {p : State → Bool} (h : nextWith r p = true) : ∃ t, r = .next t ∧ p t = true := by
  cases r with
  | next t => exact ⟨t, rfl, h⟩
  | fault f => cases h
  | refused e => cases h

/-! ### Ill-formed terms are refused -/

theorem test_illFormed_jp : (Instr.jp 0x1000).wellFormed = false := by decide
theorem test_illFormed_call : (Instr.call 0x1000).wellFormed = false := by decide
theorem test_illFormed_ldI : (Instr.ldI 0xFFFF).wellFormed = false := by decide
theorem test_illFormed_jpV0 : (Instr.jpV0 0x1000).wellFormed = false := by decide
theorem test_illFormed_drw : (Instr.drw 0 1 16).wellFormed = false := by decide

/-! ### One word of every constructor (R72, R73, R76)

The bytes are written from the row's Match column with the fields of its format filled in by hand. -/

theorem test_decode_nop : decode [0x00, 0x00] = .ok (.nop, []) := by decide
theorem test_decode_cls : decode [0x00, 0xE0] = .ok (.cls, []) := by decide
theorem test_decode_ret : decode [0x00, 0xEE] = .ok (.ret, []) := by decide
theorem test_decode_jp : decode [0x12, 0x34] = .ok (.jp 0x234, []) := by decide
theorem test_decode_call : decode [0x2A, 0xBC] = .ok (.call 0xABC, []) := by decide
theorem test_decode_seImm : decode [0x3A, 0x42] = .ok (.seImm 0xA 0x42, []) := by decide
theorem test_decode_sneImm : decode [0x4B, 0x24] = .ok (.sneImm 0xB 0x24, []) := by decide
theorem test_decode_seReg : decode [0x51, 0x20] = .ok (.seReg 1 2, []) := by decide
theorem test_decode_ldImm : decode [0x6F, 0xAB] = .ok (.ldImm 15 0xAB, []) := by decide
theorem test_decode_addImm : decode [0x70, 0xFF] = .ok (.addImm 0 0xFF, []) := by decide
theorem test_decode_ldReg : decode [0x81, 0x20] = .ok (.ldReg 1 2, []) := by decide
theorem test_decode_orReg : decode [0x8A, 0xB1] = .ok (.orReg 0xA 0xB, []) := by decide
theorem test_decode_andReg : decode [0x81, 0x22] = .ok (.andReg 1 2, []) := by decide
theorem test_decode_xorReg : decode [0x8C, 0xD3] = .ok (.xorReg 0xC 0xD, []) := by decide
theorem test_decode_addReg : decode [0x8F, 0x14] = .ok (.addReg 15 1, []) := by decide
theorem test_decode_sub : decode [0x81, 0xF5] = .ok (.sub 1 15, []) := by decide
theorem test_decode_shr : decode [0x81, 0xF6] = .ok (.shr 1 15, []) := by decide
theorem test_decode_subn : decode [0x83, 0x47] = .ok (.subn 3 4, []) := by decide
theorem test_decode_shl : decode [0x81, 0x2E] = .ok (.shl 1 2, []) := by decide
theorem test_decode_sneReg : decode [0x9E, 0x70] = .ok (.sneReg 14 7, []) := by decide
theorem test_decode_ldI : decode [0xA2, 0xF0] = .ok (.ldI 0x2F0, []) := by decide
theorem test_decode_jpV0 : decode [0xBF, 0xFF] = .ok (.jpV0 0xFFF, []) := by decide
theorem test_decode_rnd : decode [0xC1, 0x0F] = .ok (.rnd 1 0x0F, []) := by decide
theorem test_decode_drw : decode [0xD3, 0x4F] = .ok (.drw 3 4 15, []) := by decide
theorem test_decode_skp : decode [0xE1, 0x9E] = .ok (.skp 1, []) := by decide
theorem test_decode_sknp : decode [0xE5, 0xA1] = .ok (.sknp 5, []) := by decide
theorem test_decode_ldVxDt : decode [0xF1, 0x07] = .ok (.ldVxDt 1, []) := by decide
theorem test_decode_ldVxK : decode [0xF5, 0x0A] = .ok (.ldVxK 5, []) := by decide
theorem test_decode_ldDtVx : decode [0xFF, 0x15] = .ok (.ldDtVx 15, []) := by decide
theorem test_decode_ldStVx : decode [0xF3, 0x18] = .ok (.ldStVx 3, []) := by decide
theorem test_decode_addI : decode [0xF1, 0x1E] = .ok (.addI 1, []) := by decide
theorem test_decode_ldF : decode [0xF2, 0x29] = .ok (.ldF 2, []) := by decide
theorem test_decode_ldB : decode [0xF7, 0x33] = .ok (.ldB 7, []) := by decide
theorem test_decode_ldMemVx : decode [0xF2, 0x55] = .ok (.ldMemVx 2, []) := by decide
theorem test_decode_ldVxMem : decode [0xFF, 0x65] = .ok (.ldVxMem 15, []) := by decide

/-! A word of each class of the rejection table of R77 (E8, E9). -/

theorem test_rejected_zero : decodeWord 0x0123 = .error (.unimplementedOpcode 0x0123) := by decide
theorem test_rejected_five : decodeWord 0x5121 = .error (.unimplementedOpcode 0x5121) := by decide
theorem test_rejected_eight : decodeWord 0x8128 = .error (.unimplementedOpcode 0x8128) := by decide
theorem test_rejected_eightF : decodeWord 0x812F = .error (.unimplementedOpcode 0x812F) := by decide
theorem test_rejected_nine : decodeWord 0x9121 = .error (.unimplementedOpcode 0x9121) := by decide
theorem test_rejected_keys : decodeWord 0xE19F = .error (.unimplementedOpcode 0xE19F) := by decide
theorem test_rejected_misc : decodeWord 0xF075 = .error (.unimplementedOpcode 0xF075) := by decide

/-- Fewer than two bytes are no instruction (R70). -/
theorem test_decode_truncated : decode [0x12] = .error .truncated := by decide

/-- The word of an instruction, bit by bit (R83): D3 4F and 81 F6. -/
theorem test_encode_fields : encode (.drw 3 4 15) = 0xD34F ∧ encode (.shr 1 15) = 0x81F6 := by decide

/-! ### One Step, control flow -/

/-- E4. -/
theorem test_nop_lastWord : nextWith (step ((start [] []).setPc 0xFFE)) (fun t => t == (start [] []).setPc 0x1000) = true := by
  decide
/-- F8. -/
theorem test_ret_pops :
    nextWith (step { start [0x00, 0xEE] [] with sp := 1, stack := (Vector.replicate 16 0).set 0 0x0202 })
      (fun t => t.pc == 0x202 && t.sp.val == 0 && t.stack[0] == 0x202) = true := by decide
/-- F9. -/
theorem test_ret_underflow : faultsWith (step (start [0x00, 0xEE] [])) .stackUnderflow = true := by decide
/-- E1. -/
theorem test_jp_highByteFirst : nextWith (step (start [0x12, 0x34] [])) (fun t => t.pc == 0x234) = true := by decide
/-- F3. -/
theorem test_jp_self : nextWith (step (start [0x12, 0x00] [])) (fun t => t == start [0x12, 0x00] []) = true := by decide
/-- F6, at 0x200. -/
theorem test_call_lastSlot : nextWith (step { start [0x23, 0x00] [] with sp := 15 })
    (fun t => t.pc == 0x300 && t.sp.val == 16 && t.stack[15] == 0x202 && t.stack[14] == 0) = true := by decide
/-- F7. -/
theorem test_call_overflow : faultsWith (step { start [0x23, 0x00] [] with sp := 16 }) .stackOverflow = true := by decide
/-- F12. -/
theorem test_jpV0_notReduced : nextWith (step (start [0xBF, 0xFF] [(0, 0xFF)])) (fun t => t.pc == 0x10FE) = true := by decide
/-- F13. -/
theorem test_jpV0_registerZero : nextWith (step (start [0xB3, 0x00] [(3, 0x55)])) (fun t => t.pc == 0x300) = true := by decide

/-! ### One Step, skips -/

/-- K12. -/
theorem test_seImm_equal : nextWith (step (start [0x3F, 0x01] [(15, 1)])) (fun t => t.pc == 0x204 && t.getV 15 == 1) = true := by
  decide
/-- K2. -/
theorem test_seImm_different : nextWith (step (start [0x3A, 0x42] [(10, 0x43)])) (fun t => t.pc == 0x202) = true := by decide
/-- K3. -/
theorem test_sneImm_equal : nextWith (step (start [0x4A, 0x42] [(10, 0x42)])) (fun t => t.pc == 0x202) = true := by decide
/-- K4. -/
theorem test_sneImm_different : nextWith (step (start [0x4A, 0x42] [])) (fun t => t.pc == 0x204) = true := by decide
/-- K5. -/
theorem test_seReg_equal : nextWith (step (start [0x51, 0x20] [(1, 0x7F), (2, 0x7F)])) (fun t => t.pc == 0x204) = true := by decide
/-- K6. -/
theorem test_seReg_different : nextWith (step (start [0x51, 0x20] [(1, 1), (2, 2)])) (fun t => t.pc == 0x202) = true := by decide
/-- K8. -/
theorem test_sneReg_different : nextWith (step (start [0x91, 0x20] [(1, 1), (2, 2)])) (fun t => t.pc == 0x204) = true := by decide
/-- K9. -/
theorem test_sneReg_equal : nextWith (step (start [0x91, 0x20] [(1, 7), (2, 7)])) (fun t => t.pc == 0x202) = true := by decide

/-! ### One Step, arithmetic -/

/-- A2. -/
theorem test_ldImm_vf : nextWith (step (start [0x6F, 0xAB] [(15, 1)])) (fun t => t.getV 15 == 0xAB && t.pc == 0x202) = true := by
  decide
/-- A3. -/
theorem test_addImm_noCarry : nextWith (step (start [0x70, 0xFF] [(0, 5)])) (fun t => t.getV 0 == 4 && t.getV 15 == 0) = true := by
  decide
/-- A5. -/
theorem test_addImm_vf : nextWith (step (start [0x7F, 0x01] [(15, 0xFF)])) (fun t => t.getV 15 == 0) = true := by decide
/-- A6. -/
theorem test_ldReg : nextWith (step (start [0x81, 0x20] [(2, 0x2A)])) (fun t => t.getV 1 == 0x2A && t.getV 2 == 0x2A) = true := by
  decide
/-- A7. -/
theorem test_or : nextWith (step (start [0x81, 0x21] [(1, 0xF0), (2, 0x0F), (15, 1)]))
    (fun t => t.getV 1 == 0xFF && t.getV 15 == 1) = true := by decide
/-- A8. -/
theorem test_and : nextWith (step (start [0x81, 0x22] [(1, 0xF3), (2, 0x3F), (15, 1)]))
    (fun t => t.getV 1 == 0x33 && t.getV 15 == 1) = true := by decide
/-- A9. -/
theorem test_xor : nextWith (step (start [0x81, 0x23] [(1, 0xFF), (2, 0x0F), (15, 1)]))
    (fun t => t.getV 1 == 0xF0 && t.getV 15 == 1) = true := by decide
/-- A14. -/
theorem test_addReg_intoVf : nextWith (step (start [0x8F, 0x14] [(15, 2), (1, 3)])) (fun t => t.getV 15 == 0) = true := by decide
/-- A16. -/
theorem test_addReg_oldVf : nextWith (step (start [0x81, 0xF4] [(1, 0xFF), (15, 1)]))
    (fun t => t.getV 1 == 0 && t.getV 15 == 1) = true := by decide
/-- A18. -/
theorem test_sub_equal : nextWith (step (start [0x81, 0x25] [(1, 5), (2, 5)])) (fun t => t.getV 1 == 0 && t.getV 15 == 1) = true := by
  decide
/-- A21. -/
theorem test_sub_oldVf : nextWith (step (start [0x81, 0xF5] [(15, 1)])) (fun t => t.getV 1 == 0xFF && t.getV 15 == 0) = true := by
  decide
/-- A26. -/
theorem test_shr_ignoresY : nextWith (step (start [0x81, 0xF6] [(1, 5), (15, 7)]))
    (fun t => t.getV 1 == 2 && t.getV 15 == 1) = true := by decide
/-- A28. -/
theorem test_shr_vf : nextWith (step (start [0x8F, 0x06] [(15, 3)])) (fun t => t.getV 15 == 0) = true := by decide
/-- A22. -/
theorem test_subn_borrow : nextWith (step (start [0x81, 0x27] [(1, 2), (2, 1)]))
    (fun t => t.getV 1 == 0xFF && t.getV 15 == 0) = true := by decide
/-- A24. -/
theorem test_subn_intoVf : nextWith (step (start [0x8F, 0x17] [(15, 9), (1, 9)])) (fun t => t.getV 15 == 1) = true := by decide
/-- A30. -/
theorem test_shl_out : nextWith (step (start [0x81, 0x0E] [(1, 0x81)])) (fun t => t.getV 1 == 2 && t.getV 15 == 1) = true := by
  decide
/-- A34. -/
theorem test_shl_vf : nextWith (step (start [0x8F, 0x0E] [(15, 0xFF)])) (fun t => t.getV 15 == 2) = true := by decide
/-- A35: the byte is the Step's input. -/
theorem test_rnd_masks : nextWith (stepWith 0xA7 (start [0xC1, 0x0F] [(1, 0xAA)]))
    (fun t => t.getV 1 == 0x07 && t.pc == 0x202 && t.draws == 0) = true := by decide
/-- A38: into VF, as data. -/
theorem test_rnd_vf : nextWith (stepWith 0xFF (start [0xCF, 0x01] [])) (fun t => t.getV 15 == 1) = true := by decide

/-! ### One Step, index register and memory -/

/-- M2. -/
theorem test_ldI : nextWith (step (start [0xAF, 0xFF] [])) (fun t => t.i == 0xFFF) = true := by decide
/-- M4. -/
theorem test_addI_past_memory : nextWith (step (startI [0xF1, 0x1E] [(1, 1)] 0xFFF)) (fun t => t.i == 0x1000 && t.getV 15 == 0) = true := by
  decide
/-- M5. -/
theorem test_addI_wraps : nextWith (step (startI [0xF1, 0x1E] [(1, 1)] 0xFFFF)) (fun t => t.i == 0) = true := by decide
/-- M7. -/
theorem test_ldF_wholeByte : nextWith (step (start [0xF2, 0x29] [(2, 0xFF)])) (fun t => t.i == 0x4FB) = true := by decide
/-- M9. -/
theorem test_ldB_digits : nextWith (step (startI [0xF0, 0x33] [(0, 0xEA)] 0x300))
    (fun t => t.mem.peek 0x300 == 2 && t.mem.peek 0x301 == 3 && t.mem.peek 0x302 == 4 && t.i == 0x300) = true := by decide
/-- M13. -/
theorem test_ldB_outOfBounds : faultsWith (step (startI [0xF0, 0x33] [] 0xFFE)) .memoryOutOfBounds = true := by decide
/-- M14. -/
theorem test_ldMemVx_block : nextWith (step (startI [0xF2, 0x55] [(0, 2), (1, 3), (2, 4), (3, 0x77)] 0x303))
    (fun t => t.mem.peek 0x303 == 2 && t.mem.peek 0x304 == 3 && t.mem.peek 0x305 == 4 && t.mem.peek 0x306 == 0) = true := by decide
/-- M16. -/
theorem test_ldMemVx_allOrNothing : faultsWith (step (startI [0xF1, 0x55] [] 0xFFF)) .memoryOutOfBounds = true := by decide
/-- M20. -/
theorem test_ldVxMem_font : nextWith (step (start [0xF4, 0x65] [(5, 0x77)]))
    (fun t => t.getV 0 == 0xF0 && t.getV 1 == 0x90 && t.getV 4 == 0xF0 && t.getV 5 == 0x77) = true := by decide
/-- M21. -/
theorem test_ldVxMem_outOfBounds : faultsWith (step (startI [0xF0, 0x65] [] 0x1000)) .memoryOutOfBounds = true := by decide

/-! ### One Step, display -/

/-- G14. -/
theorem test_cls : nextWith (step { start [0x00, 0xE0] [(15, 1)] with disp := litCells [7, 2047] })
    (fun t => !t.disp.cell 7 && !t.disp.cell 2047 && t.getV 15 == 1) = true := by decide
/-- P4, Step 5: a corner sprite erased across both edges. -/
theorem test_drw_wraps_and_collides : nextWith (step { startI [0xD0, 0x12, 0xC0, 0xC0] [(0, 63), (1, 31)] 0x202 with
    disp := litCells [0, 63, 1984, 2047] }) (fun t => !t.disp.cell 0 && !t.disp.cell 63 &&
    !t.disp.cell 1984 && !t.disp.cell 2047 && !t.disp.cell 64 && t.getV 15 == 1) = true := by decide
/-- G13. -/
theorem test_drw_vfCoordinate : nextWith (step (startI [0xDF, 0x01, 0x80] [(15, 5), (0, 2)] 0x202))
    (fun t => t.disp.cell 133 && !t.disp.cell 140 && !t.disp.cell 132 && t.getV 15 == 0) = true := by decide

/-! ### One Step, keypad and timers -/

/-- T1. -/
theorem test_skp_pressed : nextWith (step { start [0xE1, 0x9E] [(1, 5)] with key := (Vector.replicate 16 false).set 5 true })
    (fun t => t.pc == 0x204) = true := by decide
/-- T5. -/
theorem test_skp_badIndex : faultsWith (step (start [0xE1, 0x9E] [(1, 0x10)])) .invalidKeyIndex = true := by decide
/-- T3. -/
theorem test_sknp_released : nextWith (step (start [0xE1, 0xA1] [(1, 5)])) (fun t => t.pc == 0x204) = true := by decide
/-- T6. -/
theorem test_sknp_badIndex : faultsWith (step (start [0xE1, 0xA1] [(1, 0xFF)])) .invalidKeyIndex = true := by decide
/-- T11. -/
theorem test_ldVxDt : nextWith (step ((start [0xF1, 0x07] []).setDt 0x2C)) (fun t => t.getV 1 == 0x2C && t.dt == 0x2C) = true := by
  decide
/-- T7. -/
theorem test_ldVxK_waits : nextWith (step (start [0xF5, 0x0A] [])) (fun t => t == start [0xF5, 0x0A] []) = true := by decide
/-- T8. -/
theorem test_ldVxK_least : nextWith (step { start [0xF5, 0x0A] [] with
    key := ((Vector.replicate 16 false).set 7 true).set 3 true }) (fun t => t.getV 5 == 3 && t.pc == 0x202) = true := by decide
/-- T15. -/
theorem test_ldDtVx : nextWith (step (start [0xFF, 0x15] [(15, 7)])) (fun t => t.dt == 7 && t.st == 0) = true := by decide
/-- T13. -/
theorem test_ldStVx : nextWith (step (start [0xF1, 0x18] [(1, 2)])) (fun t => t.st == 2 && t.dt == 0) = true := by decide

/-! ### Fetch and host operations -/

/-- E5. -/
theorem test_fetch_outside : faultsWith (step ((start [] []).setPc 0xFFF)) .memoryOutOfBounds = true := by decide
/-- E7. -/
theorem test_step_unimplemented : faultsWith (step (start [0x00, 0xE1] [])) (.unimplementedOpcode 0x00E1) = true := by decide
/-- S7, H1. -/
theorem test_timers_floor : (timerSteps 5 (State.reset.setDt 3)).1.dt = 0 := by decide
/-- H2. -/
theorem test_timers_alert : (timerSteps 3 (State.reset.setSt 2)).2 = [false, true, false] := by decide
/-- H5. -/
theorem test_keySet : nextWith (keySet 5 true State.reset) (fun t => t.key[5] && !t.key[4]) = true := by decide
/-- H6. -/
theorem test_keySet_badIndex : faultsWith (keySet 16 true State.reset) .invalidKeyIndex = true := by decide
/-- H10, the second Load. -/
theorem test_load_keepsRest : nextWith (load [0x11, 0x22] (start [0xAA, 0xBB, 0xCC, 0xDD] []))
    (fun t => t.mem == [(0x200, 0x11), (0x201, 0x22), (0x202, 0xCC), (0x203, 0xDD)]) = true := by decide
/-- H12, part: Reset over a written font byte. -/
theorem test_reset : hostReset defaultFont { start [0x12] [(3, 9)] with sp := 4, dt := 7 } = State.reset := by decide
/-- H15: a fault leaves the state, so the operation after it starts from there. -/
theorem test_fault_keepsState : (perform defaultFont (.step 0) (start [0x00, 0xEE] [])).1 = start [0x00, 0xEE] [] := by decide
/-- H9, H15 with the codes of R230: Ok, an execute fault, a key fault. -/
theorem test_outcome_codes :
    (perform defaultFont (.step 0) State.reset).2.code = some 0 ∧
    (perform defaultFont (.step 0) (start [0x00, 0xEE] [])).2.code = some 5 ∧
    (perform defaultFont (.keySet 16 true) State.reset).2.code = some 6 := by decide

/-! ### The fixed names of the host

A table word is decoded, and stored where the next Step fetches it, also where `pc` stands outside memory. -/

theorem test_decodeTableWord : decodeTableWord 16 0xD34F = some (.drw 3 4 15) ∧ decodeTableWord 16 0x5121 = none := by decide
theorem test_withFetchWord : nextWith (step ((State.reset.setPc 0x1000).withFetchWord 16 0x6A42))
    (fun t => t.getV 10 == 0x42 && t.pc == 0x202) = true := by decide

/-! ### Witnesses

For every obligation with hypotheses: a state and operands that meet them together, for every clause at a boundary of its
range. An obligation that is an equivalence gets a witness for each of its cases. -/

theorem test_witness_DecodeEncodeRoundTrip :
    (Instr.drw 3 4 15).wellFormed = true ∧ (Instr.jpV0 0xFFF).wellFormed = true := by decide

theorem test_witness_DecodedWordEncodesBack : decodeWord 0x81F6 = .ok (.shr 1 15) := by decide

theorem test_witness_OpcodePatternsDisjoint : ∃ j k : Fin opcodeTable.length,
    opcodeTable[j].fits 0x81F6 = true ∧ opcodeTable[k].fits 0x81F6 = true := ⟨⟨16, by decide⟩, ⟨16, by decide⟩, by decide, by decide⟩

/-- One word of each format fits its mask. -/
theorem test_witness_WordsOfJumpAndImmediateFormats :
    (0x1FFF : Word) &&& 0xF000 = 0x1000 ∧ (0xCFFF : Word) &&& 0xF000 = 0xC000 := by decide
theorem test_witness_WordsOfRegisterPairFormats :
    (0x8FFE : Word) &&& 0xF00F = 0x800E ∧ (0xDFFF : Word) &&& 0xF000 = 0xD000 := by decide
theorem test_witness_WordsOfSingleRegisterFormat : (0xFF65 : Word) &&& 0xF0FF = 0xF065 := by decide

theorem test_witness_StepRunsDecodedInstruction : ((start [] []).setPc 0xFFE).pc.toNat + 1 ≤ 4095 ∧
    decode [((start [] []).setPc 0xFFE).mem.peek 0xFFE, ((start [] []).setPc 0xFFE).mem.peek 0xFFF] = .ok (.nop, []) := by decide

theorem test_witness_FetchOutsideMemoryFaults :
    0xFFF ≤ ((start [] []).setPc 0xFFF).pc.toNat ∧ 0xFFF ≤ ((start [] []).setPc 0xFFFF).pc.toNat := by decide

theorem test_witness_StepFaultsExactly_decode :
    (start [0x00, 0xE1] []).wordAt 0x00E1 ∧ ∀ i, decodeWord 0x00E1 ≠ .ok i := by
  have h : decodeWord 0x00E1 = .error (.unimplementedOpcode 0x00E1) := by decide
  exact ⟨⟨by decide, by decide, by decide⟩, fun i e => by rw [h] at e; cases e⟩
theorem test_witness_StepFaultsExactly_execute : (start [0x00, 0xEE] []).wordAt 0x00EE ∧ decodeWord 0x00EE = .ok .ret ∧
    faultOf .ret (start [0x00, 0xEE] []) = some .stackUnderflow := ⟨⟨by decide, by decide, by decide⟩, by decide, by decide⟩

theorem test_witness_ProgramCounterAfterStep : ∃ t, (start [0x12, 0x34] []).wordAt 0x1234 ∧
    decodeWord 0x1234 = .ok (.jp 0x234) ∧ step (start [0x12, 0x34] []) = .next t := by
  obtain ⟨t, h, _⟩ := nextWith_elim test_jp_highByteFirst
  exact ⟨t, ⟨by decide, by decide, by decide⟩, by decide, h⟩

theorem test_witness_StepWritesOnlyItsItems : ∃ t, (start [0x6F, 0xAB] [(15, 1)]).wordAt 0x6FAB ∧
    decodeWord 0x6FAB = .ok (.ldImm 15 0xAB) ∧ step (start [0x6F, 0xAB] [(15, 1)]) = .next t ∧
    ¬ mayWriteReg (.ldImm 15 0xAB) 14 := by
  obtain ⟨t, h, _⟩ := nextWith_elim test_ldImm_vf
  exact ⟨t, ⟨by decide, by decide, by decide⟩, by decide, h, by show ¬ ((14 : Reg) = 15); decide⟩

theorem test_witness_FetchWordRunsNext : 0xF965 < 65536 ∧ decodeTableWord 16 0xF965 = some (.ldVxMem 9) := by decide

theorem test_witness_SelfJumpIsFixedPoint :
    (start [0x12, 0x00] []).pc.toNat + 1 ≤ 4095 ∧ (start [0x12, 0x00] []).wordAt (0x1000 ||| (start [0x12, 0x00] []).pc) :=
  ⟨by decide, by decide, by decide, by decide⟩

theorem test_witness_KeyWaitStepChangesNothing :
    (start [0xFF, 0x0A] []).wordAt (0xF00A ||| placeX 15) ∧ ∀ k : Fin 16, (start [0xFF, 0x0A] []).key[k.val] = false :=
  ⟨⟨by decide, by decide, by decide⟩, by decide⟩

/-- P8, Step 4. -/
theorem test_witness_StoreSeenByNextFetch : 1 ≤ (1 : Reg).val ∧ (startI [0xF1, 0x55] [(0, 0x12)] 0x202).wordAt (0xF055 ||| placeX 1) ∧
    (startI [0xF1, 0x55] [(0, 0x12)] 0x202).i = (startI [0xF1, 0x55] [(0, 0x12)] 0x202).pc + 2 ∧
    (startI [0xF1, 0x55] [(0, 0x12)] 0x202).i.toNat + (1 : Reg).val ≤ 4095 :=
  ⟨by decide, ⟨by decide, by decide, by decide⟩, by decide, by decide⟩

/-- H13: 1792 Steps from reset with nothing loaded, as far as the last fetchable word. -/
theorem test_witness_RunsThroughZeroBytes : State.reset.pc.toNat + 2 * 1792 ≤ 0x1000 ∧
    ∀ a, State.reset.pc.toNat ≤ a → a < State.reset.pc.toNat + 2 * 1792 → State.reset.mem.peek a = 0 := by
  refine ⟨by decide, fun a ha _ => ?_⟩
  have hp : State.reset.pc.toNat = 512 := by decide
  have hf : font.length ≤ a := by
    have : font.length = 80 := by decide
    omega
  show font.getD a 0 = 0
  rw [List.getD_eq_default _ _ hf]

theorem test_witness_DrawsReachOnlyRandom : ∀ x nn, Instr.drw 0 1 5 ≠ .rnd x nn := fun _ _ h => by cases h

/-- A CXNN at `pc`, and a word there that is none. -/
theorem test_witness_StepTakesItsByte : (start [0xC1, 0x0F] []).wordAt 0xC10F ∧ decodeWord 0xC10F = .ok (.rnd 1 0x0F) :=
  ⟨⟨by decide, by decide, by decide⟩, by decide⟩
theorem test_witness_StepTakesItsByte_other : ∀ op x nn, (start [0x00, 0xE0] []).wordAt op → decodeWord op ≠ .ok (.rnd x nn) := by
  intro op x nn h e
  rw [State.wordAt_unique _ op 0x00E0 h ⟨by decide, by decide, by decide⟩] at e
  have h' : decodeWord 0x00E0 = .ok .cls := by decide
  rw [h'] at e; cases e

theorem test_witness_CallPushesReturnAddress :
    ({ State.reset with sp := 15 } : State).sp.val < 16 ∧ ({ State.reset with sp := 16 } : State).sp.val = 16 := by decide
theorem test_witness_ReturnPopsReturnAddress :
    0 < ({ State.reset with sp := 1 } : State).sp.val ∧ State.reset.sp.val = 0 := by decide
theorem test_witness_ReturnUndoesCall : ({ State.reset with sp := 15 } : State).sp.val < 16 := by decide
theorem test_witness_ComputedJumpAddsRegisterZero : (Instr.jpV0 0xFFF).wellFormed = true := by decide

/-- Key 15 is the last index a byte may name, 16 the first it may not. -/
theorem test_witness_KeySkipsTestLatch :
    (15 : Fin 16).val = ((start [] [(1, 15)]).getV 1).toNat ∧ ((start [] [(1, 16)]).getV 1).toNat > 15 := by decide

theorem test_witness_AddSetsCarry : (14 : Reg) ≠ vf := by decide
theorem test_witness_SubtractionsSetNoBorrow : (0 : Reg) ≠ vf := by decide
theorem test_witness_ShiftsPutOutBit : (14 : Reg) ≠ vf ∧ (15 : Reg) = vf := by decide
theorem test_witness_RandomMasksDrawnByte : ((0x7F : Byte))[(7 : Fin 8).val] = false := by decide
theorem test_witness_LoadIndexSetsIndex : (Instr.ldI 0xFFF).wellFormed = true := by decide

/-- M12, M13. -/
theorem test_witness_DecimalDigitsStored :
    (startI [] [] 4093).i.toNat + 2 ≤ 4095 ∧ (startI [] [] 4094).i.toNat + 2 > 4095 := by decide
/-- M17, M18. -/
theorem test_witness_RegistersStoredAtIndex :
    (startI [] [] 0xFF0).i.toNat + (15 : Reg).val ≤ 4095 ∧ (startI [] [] 0xFF1).i.toNat + (15 : Reg).val > 4095 := by decide
/-- The last address of memory, and M21. -/
theorem test_witness_RegistersLoadedFromIndex :
    (startI [] [] 0xFFF).i.toNat + (0 : Reg).val ≤ 4095 ∧ (startI [] [] 0x1000).i.toNat + (0 : Reg).val > 4095 ∧
      (0 : Reg) < 1 := by decide

theorem test_witness_CanonicalMemoryIsUnique : Memory.wf [(0x300, 5), (0x301, 6)] := by decide

/-- G8, G12 and G11: no bytes at any `I`, the last fit, the first that does not fit; and a cell covered and lit, and none. -/
theorem test_witness_DrawTogglesCoveredCells :
    (0 ≤ 15 ∧ (0 = 0 ∨ (startI [] [] 0xFFFF).i.toNat + 0 - 1 ≤ 4095)) ∧
    (15 ≤ 15 ∧ (15 = 0 ∨ (startI [] [] 4081).i.toNat + 15 - 1 ≤ 4095)) ∧
    (0 < 15 ∧ (startI [] [] 4082).i.toNat + 15 - 1 > 4095) := by decide
theorem test_witness_DrawTogglesCoveredCells_lit :
    (litCells [0]).cell 0 = true ∧ spriteCovers (Memory.pokes [] 0x300 [0x80]) 0x300 1 0 0 0 0 :=
  ⟨by decide, 0, 0, by decide, by decide, by decide, by decide, by decide⟩
theorem test_witness_DrawTogglesCoveredCells_unlit : ∀ c : Fin 2048, Display.clear.cell c = true →
    ¬ spriteCovers (Memory.pokes [] 0x300 [0x80]) 0x300 1 0 0 (c.val % 64) (c.val / 64) := by
  intro c h
  simp [Display.clear, Display.cell] at h

/-- S3: the coordinates are in V0 and V1, so VF does not move the sprite. -/
theorem test_witness_DrawTwiceRestoresDisplay : ∃ t, 2 ≤ 15 ∧
    exec (.drw 0 1 2) (startI [0xC0, 0xC0] [(0, 63), (1, 31)] 0x200) = .next t ∧
    t.getV 0 = (startI [0xC0, 0xC0] [(0, 63), (1, 31)] 0x200).getV 0 ∧
    t.getV 1 = (startI [0xC0, 0xC0] [(0, 63), (1, 31)] 0x200).getV 1 := by
  have h : nextWith (exec (.drw 0 1 2) (startI [0xC0, 0xC0] [(0, 63), (1, 31)] 0x200))
      (fun t => t.getV 0 == 63 && t.getV 1 == 31) = true := by decide
  obtain ⟨t, ht, hp⟩ := nextWith_elim h
  simp only [Bool.and_eq_true, beq_iff_eq] at hp
  exact ⟨t, by decide, ht, hp.1.trans (by decide), hp.2.trans (by decide)⟩

/-- Only the last key pressed; no key pressed. -/
theorem test_witness_KeyWaitReportsLeastKey :
    (((Vector.replicate 16 false).set 15 true)[(15 : Fin 16).val] = true ∧
      ∀ j : Fin 16, j < 15 → ((Vector.replicate 16 false).set 15 true)[j.val] = false) ∧
    ∀ k : Fin 16, State.reset.key[k.val] = false := by decide

theorem test_witness_KeySetWritesOneLatch : 15 < 16 ∧ 16 > 15 := by decide

/-- S10: the longest image that fits, and one byte more. -/
theorem test_witness_LoadCopiesImage :
    (List.replicate 3584 (0xAB : Byte)).length ≤ 3584 ∧ (List.replicate 3585 (0xAB : Byte)).length > 3584 := by
  simp only [List.length_replicate]; decide
theorem test_witness_LoadWritesNothingElse : ∃ t, load [0x11, 0x22] (start [0xAA, 0xBB, 0xCC, 0xDD] []) = .next t := by
  obtain ⟨t, h, _⟩ := nextWith_elim test_load_keepsRest
  exact ⟨t, h⟩

/-- The last byte of FONT, the first and last byte above it. -/
theorem test_witness_ResetGivesEveryResetValue : 79 < 80 ∧ (80 ≤ 80 ∧ 80 ≤ 4095) ∧ (80 ≤ 4095 ∧ 4095 ≤ 4095) := by decide
theorem test_witness_DisplayReadGivesCells : 63 < 64 ∧ 31 < 32 := by decide

/-- Both cases of the statement: an instruction that faults, one that does not. -/
theorem test_witness_ExecutionFaultsExactly :
    faultOf .ret State.reset = some .stackUnderflow ∧ faultOf (.drw 0 1 0) (State.reset.setI 0xFFFF) = none := by decide

/-- A Step, a Load and a KeySet that fault. -/
theorem test_witness_FaultingOperationChangesNothing :
    (perform defaultFont (.step 0) (start [0x00, 0xEE] [])).2 = .fault .stackUnderflow ∧
    (perform defaultFont (.keySet 16 true) State.reset).2 = .fault .invalidKeyIndex := by decide

/-- A state far from reset that meets the invariant: memory written, a call pending, `pc` at its bound or at a word that
runs. -/
theorem test_witness_EveryHistoryKeepsInvariant :
    ({ start [0x00, 0xEE] [] with pc := 0x10FE, sp := 1, stack := (Vector.replicate 16 0).set 0 0x1000 } : State).Inv :=
  ⟨by decide, by decide, by unfold StackSane; decide⟩
theorem test_witness_StepKeepsInvariant :
    ∃ t, ({ start [0x00, 0xEE] [] with sp := 1, stack := (Vector.replicate 16 0).set 0 0x0202 } : State).Inv ∧
      step { start [0x00, 0xEE] [] with sp := 1, stack := (Vector.replicate 16 0).set 0 0x0202 } = .next t := by
  obtain ⟨t, h, _⟩ := nextWith_elim test_ret_pops
  exact ⟨t, ⟨by decide, by decide, by unfold StackSane; decide⟩, h⟩

end Sys2Proof.Tests
end

section
/-! PROOFS. Scope (00_scope.md R8, R9): the count of draws reaches no instruction but CXNN; a faulting operation keeps the
state, and none is refused. -/

namespace Sys2Proof.Machine

/-! ### The count of draws

Each shared operation that answers a state answers the same one, with the count it was given. -/

section
variable (s : State) (n : Nat)

theorem State.skipIf_withDraws (c : Bool) :
    ({ s with draws := n } : State).skipIf c = { s.skipIf c with draws := n } := by
  cases c <;> rfl

theorem State.push_withDraws (a : Word) :
    ({ s with draws := n } : State).push a = (s.push a).map (fun t => { t with draws := n }) := by
  unfold State.push
  split <;> rfl

theorem State.pop_withDraws :
    ({ s with draws := n } : State).pop = s.pop.map (fun p => (p.1, { p.2 with draws := n })) := by
  unfold State.pop
  split <;> rfl

theorem storeAtI_withDraws (bytes : List Byte) :
    storeAtI bytes { s with draws := n } = withDraws n (storeAtI bytes s) := by
  simp only [storeAtI, State.base]
  cases s.mem.writeBlock s.i.toNat bytes <;> rfl

/-- An instruction other than CXNN neither reads nor writes the count of draws (R8). All arms have this by definition but
those that skip and those that branch on the stack, the keys or memory. -/
theorem exec_withDraws (i : Instr) (h : ∀ x nn, i ≠ .rnd x nn) :
    exec i { s with draws := n } = withDraws n (exec i s) := by
  cases i
  case rnd x nn => exact absurd rfl (h x nn)
  case seImm | sneImm | seReg | sneReg => exact congrArg _ (State.skipIf_withDraws s n _)
  case ret =>
    simp only [exec, execRet, State.pop_withDraws]
    cases s.pop <;> rfl
  case call =>
    simp only [exec, execCall, State.push_withDraws]
    cases s.push s.pc <;> rfl
  case skp x =>
    simp only [exec, execSkp, State.skipIf_withDraws, State.getV]
    cases keyIndex (s.v[x.val]) <;> rfl
  case sknp x =>
    simp only [exec, execSknp, State.skipIf_withDraws, State.getV]
    cases keyIndex (s.v[x.val]) <;> rfl
  case ldVxK =>
    simp only [exec, execLdVxK]
    cases leastKey s.key <;> rfl
  case ldB | ldMemVx => exact storeAtI_withDraws s n _
  case ldVxMem x =>
    simp only [exec, execLdVxMem, State.base]
    cases s.mem.readBlock s.i.toNat (x.val + 1) <;> rfl
  case drw _ _ k =>
    simp only [exec, execDrw, State.base]
    cases s.mem.readBlock s.i.toNat k <;> rfl
  all_goals rfl

end

/-! ### No refusal -/

theorem storeAtI_ne_refused (bytes : List Byte) (s : State) (e : Refusal) : storeAtI bytes s ≠ .refused e := by
  unfold storeAtI
  split <;> nofun

/-- Every arm of exec gives its instruction a meaning: a next state or a fault of R230. -/
theorem exec_ne_refused (i : Instr) (s : State) (e : Refusal) : exec i s ≠ .refused e := by
  cases i
  case ldB | ldMemVx => exact storeAtI_ne_refused _ s e
  case ret | call | skp | sknp | ldVxK | ldVxMem | drw =>
    simp only [exec, execRet, execCall, execSkp, execSknp, execLdVxK, execLdVxMem, execDrw]
    split <;> nofun
  all_goals nofun

theorem step_ne_refused (s : State) (e : Refusal) : step s ≠ .refused e := by
  unfold step
  split
  · nofun
  · exact exec_ne_refused _ _ e

theorem stepWith_ne_refused (r : Byte) (s : State) (e : Refusal) : stepWith r s ≠ .refused e := by
  rcases stepWith_cases r s with h | ⟨x, nn, -, h⟩ <;> rw [h]
  · exact step_ne_refused s e
  · nofun

theorem load_ne_refused (bytes : List Byte) (s : State) (e : Refusal) : load bytes s ≠ .refused e := by
  unfold load
  split <;> nofun

theorem keySet_ne_refused (index : Nat) (pressed : Bool) (s : State) (e : Refusal) :
    keySet index pressed s ≠ .refused e := by
  unfold keySet
  split <;> nofun

/-! ### Operations as the host sees them -/

/-- An operation that faults leaves the state it began in (R238). -/
theorem settle_fst_of_fault (s : State) (r : Result) (f : Fault) (h : (settle s r).2 = .fault f) : (settle s r).1 = s := by
  cases r with
  | next t => cases h
  | fault f => rfl
  | refused e => cases h

theorem settle_ne_refused (s : State) (r : Result) (hr : ∀ e, r ≠ .refused e) (e : Refusal) :
    (settle s r).2 ≠ .refused e := by
  cases r with
  | next t => nofun
  | fault f => nofun
  | refused e' => exact absurd rfl (hr e')

/-- An operation of the host that faults keeps the state, `pc` included, and is Step, Load or KeySet: the other three
complete in every state (R238, R9). -/
theorem perform_fault (fnt : Vector Byte 80) (op : Op) (s : State) (f : Fault) (h : (perform fnt op s).2 = .fault f) :
    (perform fnt op s).1 = s ∧
      ((∃ r, op = .step r) ∨ (∃ bytes, op = .load bytes) ∨ ∃ k b, op = .keySet k b) := by
  cases op with
  | step r => exact ⟨settle_fst_of_fault s _ f h, .inl ⟨r, rfl⟩⟩
  | load bytes => exact ⟨settle_fst_of_fault s _ f h, .inr (.inl ⟨bytes, rfl⟩)⟩
  | keySet k b => exact ⟨settle_fst_of_fault s _ f h, .inr (.inr ⟨k, b, rfl⟩)⟩
  | reset | timerStep | displayRead => cases h

theorem perform_ne_refused (fnt : Vector Byte 80) (op : Op) (s : State) (e : Refusal) :
    (perform fnt op s).2 ≠ .refused e := by
  cases op with
  | step r => exact settle_ne_refused s _ (stepWith_ne_refused r s) e
  | load bytes => exact settle_ne_refused s _ (load_ne_refused bytes s) e
  | keySet k b => exact settle_ne_refused s _ (keySet_ne_refused k b s) e
  | reset | timerStep | displayRead => nofun

/-! ### The obligations -/

/-- Settles O20, arm by arm (`exec_withDraws`). -/
theorem drawsReachOnlyRandom : Obligations.DrawsReachOnlyRandom :=
  fun i s n h => exec_withDraws s n i h

/-- Settles O55, from what `settle` leaves after a fault and from the absence of refusals. -/
theorem faultingOperationChangesNothing : Obligations.FaultingOperationChangesNothing :=
  fun fnt op s => ⟨perform_fault fnt op s, perform_ne_refused fnt op s⟩

end Sys2Proof.Machine
end

section
/-! PROOFS. State (10_state.md): what every instruction writes and leaves alone (R34, R22), where it leaves `pc` (R24), the
timers (R27), the reset values (R33) and the invariant of reachable states (R35). -/

namespace Sys2Proof.Machine

/-! ### Frames

`OnlyWrites` is `OnlyChanges` with the items compared as data, not by reading them: a kept `mem` is the same list, so the
canonical form is kept with it. -/

/-- An item of state is the same data in `t` as in `s`. -/
def SameItem (s t : State) (item : Item) : Prop :=
  match item with
  | .mem => t.mem = s.mem
  | .pc => t.pc = s.pc
  | .regs => t.v = s.v
  | .index => t.i = s.i
  | .stack => t.sp = s.sp ∧ t.stack = s.stack
  | .dt => t.dt = s.dt
  | .st => t.st = s.st
  | .key => t.key = s.key
  | .disp => t.disp = s.disp
  | .draws => t.draws = s.draws

/-- Every item but those listed is the same data as before. -/
def OnlyWrites (items : List Item) (s t : State) : Prop := ∀ item, item ∉ items → SameItem s t item

/-- The same data reads the same. -/
theorem SameItem.unchanged {s t : State} {item : Item} (h : SameItem s t item) : Unchanged s t item := by
  cases item
  case mem => exact fun a => congrArg (Memory.peek · a) h
  case regs => exact fun r => congrArg (fun v : Vector Byte 16 => v[r.val]) h
  case stack => exact ⟨h.1, fun k => congrArg (fun v : Vector Word 16 => v[k.val]) h.2⟩
  case key => exact fun k => congrArg (fun v : Vector Bool 16 => v[k.val]) h
  case disp => exact fun c => congrArg (Display.cell · c) h
  all_goals exact h

theorem SameItem.trans {s t u : State} {item : Item} (h : SameItem s t item) (k : SameItem t u item) :
    SameItem s u item := by
  cases item
  case stack => exact ⟨k.1.trans h.1, k.2.trans h.2⟩
  all_goals exact Eq.trans k h

theorem OnlyWrites.onlyChanges {items : List Item} {s t : State} (h : OnlyWrites items s t) : OnlyChanges items s t :=
  fun item hi => (h item hi).unchanged

theorem OnlyWrites.trans {items : List Item} {s t u : State} (h : OnlyWrites items s t) (k : OnlyWrites items t u) :
    OnlyWrites items s u :=
  fun item hi => (h item hi).trans (k item hi)

theorem OnlyWrites.mono {items items' : List Item} {s t : State} (h : OnlyWrites items s t) (hsub : items ⊆ items') :
    OnlyWrites items' s t :=
  fun item hi => h item fun hm => hi (hsub hm)

/-- The frame written out, item by item. -/
theorem onlyWrites_iff (items : List Item) (s t : State) : OnlyWrites items s t ↔
    (.mem ∉ items → t.mem = s.mem) ∧ (.pc ∉ items → t.pc = s.pc) ∧ (.regs ∉ items → t.v = s.v) ∧
    (.index ∉ items → t.i = s.i) ∧ (.stack ∉ items → t.sp = s.sp ∧ t.stack = s.stack) ∧
    (.dt ∉ items → t.dt = s.dt) ∧ (.st ∉ items → t.st = s.st) ∧ (.key ∉ items → t.key = s.key) ∧
    (.disp ∉ items → t.disp = s.disp) ∧ (.draws ∉ items → t.draws = s.draws) := by
  constructor
  · exact fun h => ⟨h .mem, h .pc, h .regs, h .index, h .stack, h .dt, h .st, h .key, h .disp, h .draws⟩
  · rintro ⟨hmem, hpc, hregs, hindex, hstack, hdt, hst, hkey, hdisp, hdraws⟩ item
    cases item <;> assumption

section
variable (s : State)

theorem onlyWrites_refl (items : List Item) : OnlyWrites items s s := by simp [onlyWrites_iff]

theorem onlyWrites_setV (x : Reg) (b : Byte) : OnlyWrites [.regs] s (s.setV x b) := by simp [onlyWrites_iff]

theorem onlyWrites_setFlag (b : Bool) : OnlyWrites [.regs] s (s.setFlag b) := onlyWrites_setV s vf _

theorem onlyWrites_loadRegs (bytes : List Byte) : OnlyWrites [.regs] s (s.loadRegs bytes) := by simp [onlyWrites_iff]

theorem onlyWrites_setPc (a : Word) : OnlyWrites [.pc] s (s.setPc a) := by simp [onlyWrites_iff]

theorem onlyWrites_skipIf (c : Bool) : OnlyWrites [.pc] s (s.skipIf c) := by simp [onlyWrites_iff]

theorem onlyWrites_rewind : OnlyWrites [.pc] s s.rewind := onlyWrites_setPc s _

theorem onlyWrites_advance : OnlyWrites [.pc] s s.advance := onlyWrites_setPc s _

theorem onlyWrites_setI (a : Word) : OnlyWrites [.index] s (s.setI a) := by simp [onlyWrites_iff]

theorem onlyWrites_setMem (m : Memory) : OnlyWrites [.mem] s (s.setMem m) := by simp [onlyWrites_iff]

theorem onlyWrites_setDisp (d : Display) : OnlyWrites [.disp] s (s.setDisp d) := by simp [onlyWrites_iff]

theorem onlyWrites_setDt (b : Byte) : OnlyWrites [.dt] s (s.setDt b) := by simp [onlyWrites_iff]

theorem onlyWrites_setSt (b : Byte) : OnlyWrites [.st] s (s.setSt b) := by simp [onlyWrites_iff]

theorem onlyWrites_countDraw : OnlyWrites [.draws] s s.countDraw := by simp [onlyWrites_iff]

end

/-! ### What a branching instruction does when it completes

One lemma per instruction that can fault or that chooses between two effects; the other arms of `exec` are their effect by
definition. -/

section
variable {s t : State}

theorem execRet_next (h : exec .ret s = .next t) :
    ∃ h : 0 < s.sp.val, t = { s with pc := s.stack[s.sp.val - 1]'(by omega), sp := ⟨s.sp.val - 1, by omega⟩ } := by
  simp only [exec, execRet] at h
  split at h
  · rename_i a u hpop
    obtain ⟨hsp, rfl, rfl⟩ := (State.pop_eq_some ..).1 hpop
    exact ⟨hsp, by cases h; rfl⟩
  · cases h

theorem execCall_next {nnn : Word} (h : exec (.call nnn) s = .next t) :
    ∃ h : s.sp.val < 16,
      t = { s with pc := nnn, stack := s.stack.set s.sp.val s.pc, sp := ⟨s.sp.val + 1, by omega⟩ } := by
  simp only [exec, execCall] at h
  split at h
  · rename_i u hpush
    obtain ⟨hsp, rfl⟩ := (State.push_eq_some ..).1 hpush
    exact ⟨hsp, by cases h; rfl⟩
  · cases h

theorem execSkp_next {x : Reg} (h : exec (.skp x) s = .next t) :
    ∃ k : Fin 16, k.val = (s.getV x).toNat ∧ t = s.skipIf s.key[k.val] := by
  simp only [exec, execSkp] at h
  split at h
  · rename_i k hk
    exact ⟨k, (keyIndex_eq_some _ _).1 hk, by cases h; rfl⟩
  · cases h

theorem execSknp_next {x : Reg} (h : exec (.sknp x) s = .next t) :
    ∃ k : Fin 16, k.val = (s.getV x).toNat ∧ t = s.skipIf (!s.key[k.val]) := by
  simp only [exec, execSknp] at h
  split at h
  · rename_i k hk
    exact ⟨k, (keyIndex_eq_some _ _).1 hk, by cases h; rfl⟩
  · cases h

theorem execLdVxK_next {x : Reg} (h : exec (.ldVxK x) s = .next t) :
    (∃ k : Fin 16, s.key[k.val] = true ∧ t = s.setV x (keyByte k)) ∨
      ((∀ k : Fin 16, s.key[k.val] = false) ∧ t = s.rewind) := by
  simp only [exec, execLdVxK] at h
  split at h
  · rename_i k hk
    exact .inl ⟨k, ((leastKey_eq_some _ _).1 hk).1, by cases h; rfl⟩
  · rename_i hk
    exact .inr ⟨(leastKey_eq_none _).1 hk, by cases h; rfl⟩

theorem storeAtI_next_iff (bytes : List Byte) :
    storeAtI bytes s = .next t ↔ ∃ m, s.mem.writeBlock s.base bytes = .ok m ∧ t = s.setMem m := by
  unfold storeAtI
  split
  · rename_i m hm
    simp [hm, eq_comm]
  · rename_i f hf
    simp [hf, raise]

theorem Memory.length_of_readBlock {m : Memory} {a n : Nat} {bytes : List Byte} (h : m.readBlock a n = .ok bytes) :
    bytes.length = n := by
  rw [Memory.readBlock_eq] at h
  split at h
  · cases h
    simp
  · cases h

theorem execLdVxMem_next {x : Reg} (h : exec (.ldVxMem x) s = .next t) :
    ∃ bytes, bytes.length = x.val + 1 ∧ t = s.loadRegs bytes := by
  simp only [exec, execLdVxMem] at h
  split at h
  · rename_i bytes hbytes
    exact ⟨bytes, Memory.length_of_readBlock hbytes, by cases h; rfl⟩
  · cases h

theorem execDrw_next {x y : Reg} {n : Nat} (h : exec (.drw x y n) s = .next t) :
    ∃ d hit, t = (s.setDisp d).setFlag hit := by
  simp only [exec, execDrw] at h
  split at h
  · exact ⟨_, _, (Host.Outcome.next.inj h).symm⟩
  · cases h

/-! ### What an instruction writes (R34, R22) -/

/-- The access matrix: an instruction that completes writes only the items of its row (R34). -/
theorem exec_onlyWrites (i : Instr) (h : exec i s = .next t) : OnlyWrites (itemsWritten i) s t := by
  cases i
  case nop => cases h; exact onlyWrites_refl s _
  case cls => cases h; exact onlyWrites_setDisp s _
  case jp | jpV0 => cases h; exact onlyWrites_setPc s _
  case seImm | sneImm | seReg | sneReg => cases h; exact onlyWrites_skipIf s _
  case ldImm | addImm | ldReg | orReg | andReg | xorReg | ldVxDt => cases h; exact onlyWrites_setV s _ _
  case addReg | sub | subn => cases h; exact (onlyWrites_setV s _ _).trans (onlyWrites_setFlag _ _)
  case shr | shl => cases h; exact (onlyWrites_setFlag s _).trans (onlyWrites_setV _ _ _)
  case ldI | addI | ldF => cases h; exact onlyWrites_setI s _
  case ldDtVx => cases h; exact onlyWrites_setDt s _
  case ldStVx => cases h; exact onlyWrites_setSt s _
  case rnd =>
    cases h
    exact ((onlyWrites_setV s _ _).mono (by simp [itemsWritten])).trans
      ((onlyWrites_countDraw _).mono (by simp [itemsWritten]))
  case ret =>
    obtain ⟨_, rfl⟩ := execRet_next h
    simp [onlyWrites_iff, itemsWritten]
  case call =>
    obtain ⟨_, rfl⟩ := execCall_next h
    simp [onlyWrites_iff, itemsWritten]
  case skp =>
    obtain ⟨_, _, rfl⟩ := execSkp_next h
    exact onlyWrites_skipIf s _
  case sknp =>
    obtain ⟨_, _, rfl⟩ := execSknp_next h
    exact onlyWrites_skipIf s _
  case ldVxK =>
    obtain ⟨_, _, rfl⟩ | ⟨_, rfl⟩ := execLdVxK_next h
    · exact (onlyWrites_setV s _ _).mono (by simp [itemsWritten])
    · exact (onlyWrites_rewind s).mono (by simp [itemsWritten])
  case ldB | ldMemVx =>
    obtain ⟨_, _, rfl⟩ := (storeAtI_next_iff _).1 h
    exact onlyWrites_setMem s _
  case ldVxMem =>
    obtain ⟨_, _, rfl⟩ := execLdVxMem_next h
    exact onlyWrites_loadRegs s _
  case drw =>
    obtain ⟨_, _, rfl⟩ := execDrw_next h
    exact ((onlyWrites_setDisp s _).mono (by simp [itemsWritten])).trans
      ((onlyWrites_setFlag _ _).mono (by simp [itemsWritten]))

/-- An instruction that completes writes only its own V registers: its destination, and VF where R22's table says so. -/
theorem exec_getV_of_not_mayWriteReg (i : Instr) (h : exec i s = .next t) (r : Reg) (hr : ¬ mayWriteReg i r) :
    t.getV r = s.getV r := by
  by_cases hregs : .regs ∈ itemsWritten i
  · cases i
    case ldImm | addImm | ldReg | orReg | andReg | xorReg | ldVxDt =>
      cases h
      exact (State.getV_setV ..).trans (if_neg hr)
    case addReg | sub | shr | subn | shl =>
      cases h
      obtain ⟨hx, hf⟩ := not_or.1 hr
      simp [hx, hf]
    case rnd =>
      cases h
      exact (State.getV_setV ..).trans (if_neg hr)
    case drw =>
      obtain ⟨_, _, rfl⟩ := execDrw_next h
      exact (State.getV_setFlag ..).trans (if_neg hr)
    case ldVxK =>
      obtain ⟨_, _, rfl⟩ | ⟨_, rfl⟩ := execLdVxK_next h
      · exact (State.getV_setV ..).trans (if_neg hr)
      · exact State.rewind_getV ..
    case ldVxMem x =>
      obtain ⟨bytes, hlen, rfl⟩ := execLdVxMem_next h
      have hxr : x.val < r.val := not_le.1 hr
      rw [State.loadRegs_getV _ _ _ (by omega), dif_neg (by omega)]
    all_goals simp [itemsWritten] at hregs
  · exact (exec_onlyWrites i h .regs hregs).unchanged r

end

/-! ### Where an instruction leaves `pc` (R24) -/

theorem State.skipIf_advance_pc (s : State) (c : Bool) :
    (s.advance.skipIf c).pc = if c then s.pc + 4 else s.pc + 2 := by
  simp [BitVec.add_assoc]

/-- The latch that a key index names, as the table of R24 speaks of it and as EX9E and EXA1 read it. -/
theorem exists_latch_iff (key : Vector Bool 16) (k : Fin 16) (n : Nat) (b : Bool) (hk : k.val = n) :
    (∃ j : Fin 16, j.val = n ∧ key[j.val] = b) ↔ key[k.val] = b := by
  constructor
  · rintro ⟨j, hj, e⟩
    obtain rfl : j = k := Fin.ext (hj.trans hk.symm)
    exact e
  · exact fun e => ⟨k, hk, e⟩

/-- The table of R24: `pc` after an instruction that completes, executed after the fetch advance. -/
theorem exec_advance_pc (i : Instr) (s t : State) (h : exec i s.advance = .next t) : t.pc = pcAfter i s s.pc := by
  cases i
  case ret =>
    obtain ⟨hsp, rfl⟩ := execRet_next h
    have hpos : 0 < s.sp.val := hsp
    simp [pcAfter, hpos]
  case call =>
    obtain ⟨_, rfl⟩ := execCall_next h
    rfl
  case jpV0 nnn =>
    cases h
    apply BitVec.eq_of_toNat_eq
    simp [pcAfter, zext16]
  case seImm | sneImm | seReg | sneReg =>
    cases h
    rw [State.skipIf_advance_pc]
    simp [pcAfter]
  case skp =>
    obtain ⟨k, hk, rfl⟩ := execSkp_next h
    exact (State.skipIf_advance_pc ..).trans (if_congr (exists_latch_iff _ k _ true hk).symm rfl rfl)
  case sknp =>
    obtain ⟨k, hk, rfl⟩ := execSknp_next h
    have hnot : (!s.key[k.val]) = true ↔ s.key[k.val] = false := by simp
    exact (State.skipIf_advance_pc ..).trans (if_congr (hnot.trans (exists_latch_iff _ k _ false hk).symm) rfl rfl)
  case ldVxK =>
    obtain ⟨k, hk, rfl⟩ | ⟨hnone, rfl⟩ := execLdVxK_next h
    · exact (if_pos ⟨k, hk⟩).symm
    · rw [pcAfter, if_neg (by simpa using hnone)]
      exact BitVec.add_sub_cancel _ _
  case ldB | ldMemVx =>
    obtain ⟨_, _, rfl⟩ := (storeAtI_next_iff _).1 h
    rfl
  case ldVxMem =>
    obtain ⟨_, _, rfl⟩ := execLdVxMem_next h
    rfl
  case drw =>
    obtain ⟨_, _, rfl⟩ := execDrw_next h
    rfl
  all_goals cases h; rfl

/-! ### The Step -/

/-- Every row of the opcode map builds a well-formed instruction (R74). -/
theorem decodeWord_wellFormed (op : Word) (i : Instr) (h : decodeWord op = .ok i) : i.wellFormed = true := by
  have hrows : ∀ r ∈ opcodeTable, (r.build op).wellFormed = true := by
    simp [opcodeTable, flowRows, aluRows, indexRows, Instr.wellFormed, addrFits_fieldNNN, rowsFit, fieldN_le]
  obtain ⟨r, hr, -, rfl⟩ := decodeWord_eq_ok op i h
  exact hrows r hr

/-- What fetch and decode answer is the instruction of the word at `pc` (R71, R81). -/
theorem State.fetchDecode_ok {s : State} {i : Instr} (h : s.fetchDecode = .ok i) :
    ∃ op, s.wordAt op ∧ decodeWord op = .ok i := by
  by_cases hpc : s.pc.toNat + 1 ≤ 4095
  · refine ⟨_, s.wordAt_self hpc, ?_⟩
    rw [s.fetchDecode_of_word _ (s.wordAt_self hpc)] at h
    split at h
    · rename_i j hj
      cases h
      exact hj
    · cases h
  · rw [s.fetchDecode_outside hpc] at h
    cases h

/-- A Step that completes executed the instruction that fetch and decode answered. -/
theorem step_next {s t : State} (h : step s = .next t) : ∃ i, s.fetchDecode = .ok i ∧ exec i s.advance = .next t := by
  unfold step at h
  split at h
  · cases h
  · rename_i i hi
    exact ⟨i, hi, h⟩

theorem step_next_of_word {s t : State} {op : Word} {i : Instr} (hop : s.wordAt op) (hi : decodeWord op = .ok i)
    (h : step s = .next t) : exec i s.advance = .next t := by
  rwa [step_of_word s op hop, hi] at h

/-- The fetch advance and an instruction that completes write `pc` and the items of the instruction's row (R34). -/
theorem exec_advance_onlyWrites {s t : State} {i : Instr} (h : exec i s.advance = .next t) :
    OnlyWrites (.pc :: itemsWritten i) s t :=
  ((onlyWrites_advance s).mono (by simp)).trans ((exec_onlyWrites i h).mono (List.subset_cons_self _ _))

/-! ### Timers (R27, R242) -/

theorem timerStep_onlyWrites (s : State) : OnlyWrites [.dt, .st] s (timerStep s).1 :=
  ((onlyWrites_setDt s _).mono (by simp)).trans ((onlyWrites_setSt _ _).mono (by simp))

/-- TimerStep alerts exactly when it takes `ST` from 1 to 0. -/
theorem timerStep_alert (s : State) : (timerStep s).2 = decide (s.st.toNat = 1) := by
  have : s.st = 1 ↔ s.st.toNat = 1 := ⟨fun e => by rw [e]; rfl, fun e => BitVec.eq_of_toNat_eq e⟩
  simp only [timerStep, ← this]
  rfl

theorem timerSteps_dt (n : Nat) (s : State) : (timerSteps n s).1.dt.toNat = s.dt.toNat - n := by
  induction n with
  | zero => rfl
  | succ n ih => exact (countDown_toNat _).trans (by omega)

theorem timerSteps_st (n : Nat) (s : State) : (timerSteps n s).1.st.toNat = s.st.toNat - n := by
  induction n with
  | zero => rfl
  | succ n ih => exact (countDown_toNat _).trans (by omega)

theorem timerSteps_alerts (n : Nat) (s : State) :
    (timerSteps n s).2 = (List.range n).map (fun k => decide (s.st.toNat = k + 1)) := by
  induction n with
  | zero => rfl
  | succ n ih =>
    have hlast : (timerStep (timerSteps n s).1).2 = decide (s.st.toNat = n + 1) := by
      rw [timerStep_alert, timerSteps_st]
      exact decide_eq_decide.2 (by omega)
    simp [timerSteps, ih, hlast, List.range_succ]

theorem timerSteps_onlyWrites (n : Nat) (s : State) : OnlyWrites [.dt, .st] s (timerSteps n s).1 := by
  induction n with
  | zero => exact onlyWrites_refl s _
  | succ n ih => exact ih.trans (timerStep_onlyWrites _)

/-! ### Reset (R33) -/

theorem font_length : font.length = 80 := rfl

/-- Unlisted addresses above the font read as zero. -/
theorem Memory.resetByte_of_font_le (a : Nat) (h : 80 ≤ a) : Memory.resetByte a = 0 :=
  List.getD_eq_default _ _ (by rw [font_length]; exact h)

theorem Memory.peek_ofFont_inside (fnt : Vector Byte 80) (a : Nat) (h : a < 80) : (Memory.ofFont fnt).peek a = fnt[a] := by
  have := Memory.peek_pokes_inside [] 0 a fnt.toList (by simpa using h)
  simpa [Memory.ofFont] using this

theorem Memory.peek_ofFont_above (fnt : Vector Byte 80) (a : Nat) (h : 80 ≤ a) : (Memory.ofFont fnt).peek a = 0 := by
  rw [Memory.ofFont, Memory.peek_pokes_outside _ _ _ _ (by simp; omega)]
  exact Memory.resetByte_of_font_le a h

theorem Memory.wf_ofFont (fnt : Vector Byte 80) : (Memory.ofFont fnt).wf :=
  Memory.wf_pokes [] 0 _ Memory.wf_nil (by simp)

theorem State.reset_stack (k : Fin 16) : State.reset.stack[k.val] = 0 := by simp [State.reset]

theorem State.reset_key (k : Fin 16) : State.reset.key[k.val] = false := by simp [State.reset]

/-! ### The invariant (R35) -/

theorem State.reset_inv : State.reset.Inv where
  memory := Memory.wf_nil
  pcBound := by decide
  stack k := ⟨.inl (State.reset_stack k), fun hk => absurd hk (Nat.not_lt_zero _)⟩

theorem hostReset_inv (fnt : Vector Byte 80) (s : State) : (hostReset fnt s).Inv where
  memory := Memory.wf_ofFont fnt
  pcBound := State.reset_inv.pcBound
  stack := State.reset_inv.stack

/-- Only FX33 and FX55 write memory, and they keep its canonical form. -/
theorem exec_keeps_wf (i : Instr) (s t : State) (hs : s.mem.wf) (h : exec i s = .next t) : t.mem.wf := by
  by_cases hmem : .mem ∈ itemsWritten i
  · cases i
    case ldB | ldMemVx =>
      obtain ⟨m, hm, rfl⟩ := (storeAtI_next_iff _).1 h
      exact Memory.wf_writeBlock _ _ _ _ hs hm
    all_goals simp [itemsWritten] at hmem
  · have hsame : t.mem = s.mem := exec_onlyWrites i h .mem hmem
    rwa [hsame]

/-- A pushed return address is a slot value the invariant allows. -/
theorem StackSane.push {s : State} (hs : StackSane s) (hsp : s.sp.val < 16) (a nnn : Word) (ha : 2 ≤ a.toNat)
    (ha' : a.toNat ≤ 0x1000) :
    StackSane { s with pc := nnn, stack := s.stack.set s.sp.val a, sp := ⟨s.sp.val + 1, by omega⟩ } := by
  intro k
  by_cases hk : s.sp.val = k.val
  · have hne : a ≠ 0 := by rintro rfl; simp at ha
    simpa [hk, ha, ha'] using hne
  · obtain ⟨hval, hlive⟩ := hs k
    simp only [Vector.getElem_set, hk, if_false]
    exact ⟨hval, fun hlt => hlive (by omega)⟩

/-- A pop makes one slot free and writes none. -/
theorem StackSane.pop {s : State} (hs : StackSane s) (a : Word) :
    StackSane { s with pc := a, sp := ⟨s.sp.val - 1, by omega⟩ } := by
  intro k
  obtain ⟨hval, hlive⟩ := hs k
  exact ⟨hval, fun hlt => hlive (by simp only at hlt; omega)⟩

/-- Only 2NNN and 00EE write the stack, and they keep its slots 0 or return addresses; `pc` is the advanced one. -/
theorem exec_keeps_stackSane (i : Instr) (s t : State) (hs : StackSane s) (hpc : 2 ≤ s.pc.toNat)
    (hpc' : s.pc.toNat ≤ 0x1000) (h : exec i s = .next t) : StackSane t := by
  by_cases hstack : .stack ∈ itemsWritten i
  · cases i
    case ret =>
      obtain ⟨_, rfl⟩ := execRet_next h
      exact hs.pop _
    case call nnn =>
      obtain ⟨hsp, rfl⟩ := execCall_next h
      exact hs.push hsp _ nnn hpc hpc'
    all_goals simp [itemsWritten] at hstack
  · obtain ⟨hsp, hslots⟩ : t.sp = s.sp ∧ t.stack = s.stack := exec_onlyWrites i h .stack hstack
    unfold StackSane
    rwa [hsp, hslots]

/-- Where a slot is 0 or a return address, the table of R24 stays within the bound of R35. -/
theorem pcAfter_le (i : Instr) (s : State) (p : Word) (hi : i.wellFormed = true) (hs : StackSane s)
    (hp : p.toNat + 1 ≤ 4095) : (pcAfter i s p).toNat ≤ 0x10FE := by
  have h2 : (p + 2).toNat ≤ 0x10FE := by bv_omega
  have h4 : (p + 4).toNat ≤ 0x10FE := by bv_omega
  cases i
  case jp nnn | call nnn =>
    have : nnn.toNat < 0x1000 := of_decide_eq_true hi
    exact (by omega : nnn.toNat ≤ 0x10FE)
  case jpV0 nnn =>
    have hn : nnn.toNat < 0x1000 := of_decide_eq_true hi
    have hv := (s.getV 0).isLt
    simp only [pcAfter, BitVec.toNat_ofNat]
    omega
  case ret =>
    simp only [pcAfter]
    split
    · obtain ⟨h0 | ⟨-, hle⟩, -⟩ := hs ⟨s.sp.val - 1, by omega⟩
      · simp only at h0
        simp [h0]
      · simp only at hle
        omega
    · omega
  case seImm | sneImm | seReg | sneReg | skp | sknp | ldVxK =>
    simp only [pcAfter]
    split <;> omega
  all_goals exact h2

/-- One instruction, fetched from memory and executed, keeps the invariant. -/
theorem exec_keeps_inv (i : Instr) (s t : State) (hi : i.wellFormed = true) (hpc : s.pc.toNat + 1 ≤ 4095) (hs : s.Inv)
    (h : exec i s.advance = .next t) : t.Inv where
  memory := exec_keeps_wf i s.advance t hs.memory h
  pcBound := exec_advance_pc i s t h ▸ pcAfter_le i s s.pc hi hs.stack hpc
  stack := exec_keeps_stackSane i s.advance t hs.stack (by rw [State.advance_pc]; bv_omega)
    (by rw [State.advance_pc]; bv_omega) h

theorem step_keeps_inv (s t : State) (hs : s.Inv) (h : step s = .next t) : t.Inv := by
  obtain ⟨i, hfd, hexec⟩ := step_next h
  obtain ⟨op, hop, hdec⟩ := State.fetchDecode_ok hfd
  exact exec_keeps_inv i s t (decodeWord_wellFormed op i hdec) hop.1 hs hexec

/-! ### Histories (R6) -/

/-- `Step(r)` keeps the invariant for every byte: CXNN writes one register only. -/
theorem stepWith_keeps_inv (r : Byte) (s t : State) (hs : s.Inv) (h : stepWith r s = .next t) : t.Inv := by
  obtain hstep | ⟨x, nn, hfd, hrnd⟩ := stepWith_cases r s
  · exact step_keeps_inv s t hs (hstep ▸ h)
  · obtain ⟨op, ⟨hpc, -, -⟩, -⟩ := State.fetchDecode_ok hfd
    rw [hrnd] at h
    cases h
    refine ⟨hs.memory, ?_, hs.stack⟩
    simp only [rndWith, State.setV_pc, State.advance_pc]
    bv_omega

theorem load_keeps_inv (bytes : List Byte) (s t : State) (hs : s.Inv) (h : load bytes s = .next t) : t.Inv := by
  unfold load at h
  split at h
  · cases h
  · rename_i hlen
    cases h
    simp only [Config.maxRom] at hlen
    exact ⟨Memory.wf_pokes _ _ _ hs.memory (by simp only [Config.startAddress]; omega), hs.pcBound, hs.stack⟩

theorem keySet_keeps_inv (index : Nat) (pressed : Bool) (s t : State) (hs : s.Inv)
    (h : keySet index pressed s = .next t) : t.Inv := by
  unfold keySet at h
  split at h
  · cases h
    exact ⟨hs.memory, hs.pcBound, hs.stack⟩
  · cases h

/-- An operation that can fault keeps the invariant if its next states do: after a fault the state is the one before. -/
theorem settle_keeps_inv (s : State) (r : Result) (hs : s.Inv) (hr : ∀ t, r = .next t → t.Inv) : (settle s r).1.Inv := by
  cases r with
  | next t => exact hr t rfl
  | fault | refused => exact hs

/-- Each of the six operations keeps the invariant. -/
theorem perform_keeps_inv (fnt : Vector Byte 80) (op : Op) (s : State) (hs : s.Inv) : (perform fnt op s).1.Inv := by
  cases op with
  | reset => exact hostReset_inv fnt s
  | load bytes => exact settle_keeps_inv s _ hs fun t => load_keeps_inv bytes s t hs
  | step r => exact settle_keeps_inv s _ hs fun t => stepWith_keeps_inv r s t hs
  | timerStep => exact ⟨hs.memory, hs.pcBound, hs.stack⟩
  | keySet index pressed => exact settle_keeps_inv s _ hs fun t => keySet_keeps_inv index pressed s t hs
  | displayRead => exact hs

theorem runOps_keeps_inv (fnt : Vector Byte 80) (ops : List Op) (s : State) (hs : s.Inv) : (runOps fnt ops s).Inv := by
  induction ops generalizing s with
  | nil => exact hs
  | cons op ops ih => exact ih _ (perform_keeps_inv fnt op s hs)

/-! ### The obligations -/

/-- Settles O13, by the table lemma for one instruction (`exec_advance_pc`). -/
theorem programCounterAfterStep : Obligations.ProgramCounterAfterStep :=
  fun s t _ i hop hi h => exec_advance_pc i s t (step_next_of_word hop hi h)

/-- Settles O14, by the frame after the fetch advance (`exec_advance_onlyWrites`) and the registers an instruction may
write. -/
theorem stepWritesOnlyItsItems : Obligations.StepWritesOnlyItsItems := by
  intro s t op i hop hi h
  have hexec := step_next_of_word hop hi h
  exact ⟨(exec_advance_onlyWrites hexec).onlyChanges, fun r hr => exec_getV_of_not_mayWriteReg i hexec r hr⟩

/-- Settles O47, by induction on the number of TimerSteps, clause by clause. -/
theorem oneAlertPerCountdown : Obligations.OneAlertPerCountdown :=
  fun n s => ⟨timerSteps_dt n s, timerSteps_st n s, timerSteps_alerts n s, (timerSteps_onlyWrites n s).onlyChanges⟩

/-- Settles O51: memory is the font poked into nothing, and every other item is that of State.reset. -/
theorem resetGivesEveryResetValue : Obligations.ResetGivesEveryResetValue :=
  fun fnt _ => ⟨Memory.peek_ofFont_inside fnt, fun a ha _ => Memory.peek_ofFont_above fnt a ha, rfl, State.reset_getV, rfl,
    State.reset_stack, rfl, rfl, rfl, State.reset_key, Display.cell_clear⟩

/-- Settles O56. -/
theorem invariantAfterReset : Obligations.InvariantAfterReset := ⟨State.reset_inv, hostReset_inv⟩

/-- Settles O57, from the three parts of the invariant (`exec_keeps_inv`). -/
theorem stepKeepsInvariant : Obligations.StepKeepsInvariant := step_keeps_inv

/-- Settles O58, by induction on the operations of the history (`runOps_keeps_inv`). -/
theorem everyHistoryKeepsInvariant : Obligations.EveryHistoryKeepsInvariant := runOps_keeps_inv

end Sys2Proof.Machine
end

section
/-! PROOFS. Memory (20_memory.md): the cells of a memory in canonical form are determined by what it reads as (R56); a
store is seen by the next fetch (R61). -/

namespace Sys2Proof.Machine

/-! ### The canonical form

With rising addresses a listed cell is what its address reads as, so the cells can be told from the reads alone. -/

/-- Where addresses rise strictly, no cell is hidden by one before it. -/
theorem Memory.peek_of_mem {m : Memory} (hm : m.Pairwise (fun c d => c.1 < d.1)) {c : Host.Cell} (hc : c ∈ m) :
    m.peek c.1 = c.2 := by
  induction m with
  | nil => cases hc
  | cons d m ih =>
    obtain ⟨hd, hrest⟩ := List.pairwise_cons.1 hm
    obtain rfl | hc := List.mem_cons.1 hc
    · exact if_pos rfl
    · exact (if_neg (hd c hc).ne').trans (ih hrest hc)

/-- In canonical form exactly those cells are listed that read otherwise than an unlisted address does. -/
theorem Memory.mem_iff_peek {m : Memory} (hm : m.wf) (c : Host.Cell) :
    c ∈ m ↔ m.peek c.1 = c.2 ∧ c.2 ≠ Memory.resetByte c.1 := by
  constructor
  · exact fun hc => ⟨Memory.peek_of_mem hm.1 hc, (hm.2 c hc).2⟩
  · rintro ⟨hread, hne⟩
    obtain ⟨d, hd, haddr⟩ : ∃ d ∈ m, d.1 = c.1 := by
      by_contra hnone
      exact hne (hread ▸ Memory.peek_of_not_listed m c.1 fun d hd e => hnone ⟨d, hd, e⟩)
    have hbyte : d.2 = c.2 := by rw [← hread, ← haddr, Memory.peek_of_mem hm.1 hd]
    exact Prod.ext haddr hbyte ▸ hd

/-- A memory in canonical form is determined by what its addresses read as: the reads give the cells, rising addresses
their order. -/
theorem Memory.eq_of_peek_eq {m n : Memory} (hm : m.wf) (hn : n.wf) (h : ∀ a, m.peek a = n.peek a) : m = n :=
  hm.1.eq_of_mem_iff hn.1 fun c => by rw [Memory.mem_iff_peek hm, Memory.mem_iff_peek hn, h]

/-! ### FX55 and the fetch after it -/

/-- For each of the 16 registers the word FX55 decodes to its instruction (R76). -/
theorem decodeWord_encodeX_ldMemVx : ∀ x : Reg, decodeWord (encodeX 0xF055 x) = .ok (.ldMemVx x) := by decide

/-- FX55 whose last address is in memory completes, and writes `V[0]` to `V[X]` from `I` up (R174). -/
theorem execLdMemVx_of_fits (x : Reg) (s : State) (h : s.i.toNat + x.val ≤ 4095) :
    exec (.ldMemVx x) s = .next (s.setMem (s.mem.pokes s.i.toNat (s.regsUpTo x))) :=
  storeAtI_next _ s (by rw [State.regsUpTo_length]; omega)

/-- Of a stored register block, register `r` is read back `r` bytes above the block's address (R174). -/
theorem Memory.peek_pokes_regsUpTo (m : Memory) (a : Nat) (s : State) (x r : Reg) (h : r ≤ x) :
    (m.pokes a (s.regsUpTo x)).peek (a + r.val) = s.getV r := by
  have hr : r.val < (s.regsUpTo x).length := by rw [State.regsUpTo_length]; exact Nat.lt_succ_of_le h
  rw [Memory.peek_pokes_inside _ _ _ _ hr, State.regsUpTo_get _ _ _ hr]

/-- A block of at least two registers stored at `pc` puts the word `V[0]`, `V[1]` there, `V[0]` its high byte (R53). -/
theorem State.wordAt_pokes_regsUpTo (s : State) (m : Memory) (x : Reg) (hx : 1 ≤ x.val) (hpc : s.pc.toNat + 1 ≤ 4095) :
    (s.setMem (m.pokes s.pc.toNat (s.regsUpTo x))).wordAt (wordOf (s.getV 0) (s.getV 1)) := by
  refine ⟨hpc, ?_, ?_⟩
  · rw [highByte_wordOf]
    exact Memory.peek_pokes_regsUpTo m s.pc.toNat s x 0 (Nat.zero_le _)
  · rw [lowByte_wordOf]
    exact Memory.peek_pokes_regsUpTo m s.pc.toNat s x 1 hx

/-! ### The obligations -/

/-- Settles O18: the store completes at the advanced `pc`, and the fetch there reads the word it wrote. -/
theorem storeSeenByNextFetch : Obligations.StoreSeenByNextFetch := by
  intro s x hx hop hi hfit
  have hstore : step s = .next (s.advance.setMem (s.mem.pokes s.i.toNat (s.regsUpTo x))) := by
    rw [step_of_word s (encodeX 0xF055 x) hop, decodeWord_encodeX_ldMemVx]
    exact execLdMemVx_of_fits x s.advance hfit
  have hword : (s.advance.setMem (s.mem.pokes s.i.toNat (s.regsUpTo x))).wordAt (wordOf (s.getV 0) (s.getV 1)) := by
    rw [hi] at hfit ⊢
    exact s.advance.wordAt_pokes_regsUpTo s.mem x hx (le_trans (Nat.add_le_add_left hx _) hfit)
  exact ⟨_, hstore, rfl, hword, step_of_word _ _ hword⟩

/-- Settles O40: memories in canonical form that read alike list the same cells, in the same order. -/
theorem canonicalMemoryIsUnique : Obligations.CanonicalMemoryIsUnique :=
  fun _ _ hm hn h => Memory.eq_of_peek_eq hm hn h

end Sys2Proof.Machine
end

section
/-! PROOFS. Encoding (30_encoding.md): the rows of the opcode map are pairwise disjoint (R75), so a word decodes to an
instruction iff that instruction's row fits it (R76); decoder and encoder agree (R83); the words of no row (R77); the
instruction a Step executes (R81). -/

namespace Sys2Proof.Machine

/-! ### At most one row fits a word -/

/-- Two rows that fit one word agree on the bits both their masks fix. -/
theorem pattern_and_mask_of_fits {r q : OpcodeRow} {op : Word} (hr : r.fits op = true) (hq : q.fits op = true) :
    r.pattern &&& q.mask = q.pattern &&& r.mask := by
  rw [← beq_iff_eq.1 hr, ← beq_iff_eq.1 hq, BitVec.and_assoc, BitVec.and_comm r.mask, BitVec.and_assoc]

/-- Any two rows of the map differ on a bit that both their masks fix (R75). -/
theorem opcodeTable_pairwise_disjoint :
    opcodeTable.Pairwise fun r q => r.pattern &&& q.mask ≠ q.pattern &&& r.mask := by
  decide

theorem opcodeTable_index_unique {op : Word} {j k : Nat} (hj : j < opcodeTable.length) (hk : k < opcodeTable.length)
    (hfj : opcodeTable[j].fits op = true) (hfk : opcodeTable[k].fits op = true) : j = k := by
  have hne := List.pairwise_iff_getElem.1 opcodeTable_pairwise_disjoint
  obtain h | h | h := Nat.lt_trichotomy j k
  · exact absurd (pattern_and_mask_of_fits hfj hfk) (hne j k hj hk h)
  · exact h
  · exact absurd (pattern_and_mask_of_fits hfk hfj) (hne k j hk hj h)

/-- The order in which rows are tried does not matter (R75): whichever row fits, the decoder answers its instruction. -/
theorem decodeWord_of_fits {r : OpcodeRow} {op : Word} (hr : r ∈ opcodeTable) (hfit : r.fits op = true) :
    decodeWord op = .ok (r.build op) := by
  cases hdec : decodeWord op with
  | error e =>
    have hnone := ((decodeWord_eq_error op e).1 hdec).2 r hr
    rw [hfit] at hnone
    cases hnone
  | ok i =>
    obtain ⟨q, hq, hqfit, rfl⟩ := decodeWord_eq_ok op i hdec
    obtain ⟨j, hj, rfl⟩ := List.getElem_of_mem hr
    obtain ⟨k, hk, rfl⟩ := List.getElem_of_mem hq
    obtain rfl := opcodeTable_index_unique hj hk hfit hqfit
    rfl

/-! ### Decoder and encoder -/

/-- Every well-formed instruction's word fits the instruction's own row, which builds it back. -/
theorem ownRow : ∀ i : Instr, Laws.OwnRow.Statement i
  | .nop => Laws.OwnRow.nop
  | .cls => Laws.OwnRow.cls
  | .ret => Laws.OwnRow.ret
  | .jp nnn => Laws.OwnRow.jp nnn
  | .call nnn => Laws.OwnRow.call nnn
  | .seImm x nn => Laws.OwnRow.seImm x nn
  | .sneImm x nn => Laws.OwnRow.sneImm x nn
  | .seReg x y => Laws.OwnRow.seReg x y
  | .ldImm x nn => Laws.OwnRow.ldImm x nn
  | .addImm x nn => Laws.OwnRow.addImm x nn
  | .ldReg x y => Laws.OwnRow.ldReg x y
  | .orReg x y => Laws.OwnRow.orReg x y
  | .andReg x y => Laws.OwnRow.andReg x y
  | .xorReg x y => Laws.OwnRow.xorReg x y
  | .addReg x y => Laws.OwnRow.addReg x y
  | .sub x y => Laws.OwnRow.sub x y
  | .shr x y => Laws.OwnRow.shr x y
  | .subn x y => Laws.OwnRow.subn x y
  | .shl x y => Laws.OwnRow.shl x y
  | .sneReg x y => Laws.OwnRow.sneReg x y
  | .ldI nnn => Laws.OwnRow.ldI nnn
  | .jpV0 nnn => Laws.OwnRow.jpV0 nnn
  | .rnd x nn => Laws.OwnRow.rnd x nn
  | .drw x y n => Laws.OwnRow.drw x y n
  | .skp x => Laws.OwnRow.skp x
  | .sknp x => Laws.OwnRow.sknp x
  | .ldVxDt x => Laws.OwnRow.ldVxDt x
  | .ldVxK x => Laws.OwnRow.ldVxK x
  | .ldDtVx x => Laws.OwnRow.ldDtVx x
  | .ldStVx x => Laws.OwnRow.ldStVx x
  | .addI x => Laws.OwnRow.addI x
  | .ldF x => Laws.OwnRow.ldF x
  | .ldB x => Laws.OwnRow.ldB x
  | .ldMemVx x => Laws.OwnRow.ldMemVx x
  | .ldVxMem x => Laws.OwnRow.ldVxMem x

theorem decodeWord_encode (i : Instr) (hi : i.wellFormed = true) : decodeWord (encode i) = .ok i := by
  obtain ⟨r, hr, -, hfit, hbuild⟩ := ownRow i hi
  rw [decodeWord_of_fits hr hfit, hbuild]

theorem and_mask_OP0 (op : Word) : op &&& 0xFFFF = op := BitVec.and_allOnes

theorem encodeNNN_mask_of_fields (p op : Word) (hp : p &&& 0x0FFF = 0) : encodeNNN p (fieldNNN op) &&& 0xF000 = p :=
  encodeNNN_mask p _ hp (addrFits_fieldNNN op)

theorem encodeXYN_mask_of_fields (p op : Word) (hp : p &&& 0x0FFF = 0) :
    encodeXYN p (fieldX op) (fieldY op) (fieldN op) &&& 0xF000 = p :=
  encodeXYN_mask p _ _ _ hp (fieldN_le op)

/-- A row builds from a word that fits it the instruction whose encoding that word is. -/
theorem encode_build_of_fits {r : OpcodeRow} {op : Word} (hr : r ∈ opcodeTable) (hfit : r.fits op = true) :
    encode (r.build op) = op := by
  have hrows : ∀ r ∈ opcodeTable, op &&& r.mask = r.pattern → encode (r.build op) = op := by
    simp +contextual only [opcodeTable, flowRows, aluRows, indexRows, List.cons_append, List.nil_append,
      List.forall_mem_cons, List.not_mem_nil, false_implies, encode, and_mask_OP0, encodeX_of_fields, encodeXY_of_fields,
      encodeXNN_of_fields, encodeNNN_of_fields, encodeXYN_of_fields, implies_true, and_self]
  exact hrows r hr (beq_iff_eq.1 hfit)

theorem encode_of_decodeWord {op : Word} {i : Instr} (h : decodeWord op = .ok i) : encode i = op := by
  obtain ⟨r, hr, hfit, rfl⟩ := decodeWord_eq_ok op i h
  exact encode_build_of_fits hr hfit

/-- From any word, whether it fits or not, a row builds an instruction whose encoding the row fits. -/
theorem fits_encode_build {r : OpcodeRow} (hr : r ∈ opcodeTable) (op : Word) : r.fits (encode (r.build op)) = true := by
  have hrows : ∀ r ∈ opcodeTable, encode (r.build op) &&& r.mask = r.pattern := by
    simp (disch := decide) only [opcodeTable, flowRows, aluRows, indexRows, List.cons_append, List.nil_append,
      List.forall_mem_cons, List.not_mem_nil, false_implies, encode, and_mask_OP0, encodeX_mask, encodeXY_mask,
      encodeXNN_mask, encodeNNN_mask_of_fields, encodeXYN_mask_of_fields, implies_true, and_self]
  exact beq_iff_eq.2 (hrows r hr)

/-- A word decodes to what row `k` builds from it iff the row's mask leaves the row's pattern of it (R76). -/
theorem decodeWord_row_iff (op : Word) (k : Fin 35) :
    decodeWord op = .ok (opcodeTable[k.val].build op) ↔ op &&& opcodeTable[k.val].mask = opcodeTable[k.val].pattern := by
  have hr : opcodeTable[k.val] ∈ opcodeTable := List.getElem_mem _
  constructor
  · intro h
    have hfit := fits_encode_build hr op
    rw [encode_of_decodeWord h] at hfit
    exact beq_iff_eq.1 hfit
  · exact fun h => decodeWord_of_fits hr (beq_iff_eq.2 h)

/-! ### The fields of R72 as masks -/

theorem fieldNNN_eq_and (op : Word) : fieldNNN op = op &&& 0x0FFF := by
  apply BitVec.eq_of_getLsbD_eq
  intro i hi
  simp only [fieldNNN, BitVec.getLsbD_setWidth, BitVec.getLsbD_extractLsb, BitVec.getLsbD_and]
  interval_cases i <;> simp

theorem fieldN_eq_and (op : Word) : fieldN op = (op &&& 0x000F).toNat := by
  rw [fieldN, BitVec.extractLsb_toNat, BitVec.toNat_and]
  exact (Nat.and_two_pow_sub_one_eq_mod _ 4).symm

/-- A mask made of two fixes a word's bits iff each of the two does. -/
theorem and_or_eq_iff {op p m n : Word} (hp : p &&& (m ||| n) = p) :
    op &&& (m ||| n) = p ↔ op &&& m = p &&& m ∧ op &&& n = p &&& n := by
  constructor
  · rintro rfl
    constructor
    · ext i
      cases hi : m[i] <;> simp [hi]
    · ext i
      cases hi : n[i] <;> simp [hi]
  · rintro ⟨hm, hn⟩
    rw [BitVec.and_or_distrib_left, hm, hn, ← BitVec.and_or_distrib_left, hp]

theorem and_mask_XY_iff (op p : Word) (hp : p &&& 0xF00F = p) :
    op &&& 0xF00F = p ↔ op &&& 0xF000 = p &&& 0xF000 ∧ op &&& 0x000F = p &&& 0x000F :=
  and_or_eq_iff (m := 0xF000) (n := 0x000F) hp

theorem and_mask_X_iff (op p : Word) (hp : p &&& 0xF0FF = p) :
    op &&& 0xF0FF = p ↔ op &&& 0xF000 = p &&& 0xF000 ∧ op &&& 0x00FF = p &&& 0x00FF :=
  and_or_eq_iff (m := 0xF000) (n := 0x00FF) hp

theorem majorOpcode_mem (op : Word) : op &&& 0xF000 ∈ ([0x0000, 0x1000, 0x2000, 0x3000, 0x4000, 0x5000, 0x6000,
    0x7000, 0x8000, 0x9000, 0xA000, 0xB000, 0xC000, 0xD000, 0xE000, 0xF000] : List Word) := by
  have hbits : op &&& 0xF000 = op.extractLsb 15 12 ++ (0 : BitVec 12) := by
    apply BitVec.eq_of_getLsbD_eq
    intro i hi
    simp only [BitVec.getLsbD_and, BitVec.getLsbD_append, BitVec.getLsbD_extractLsb]
    interval_cases i <;> simp
  rw [hbits]
  generalize op.extractLsb 15 12 = d
  revert d
  decide

/-- The low nibbles of the `8XYN` words that no row fits are the seven that no `8XYN` row has. -/
theorem lowNibble_mem_iff (op : Word) : op &&& 0x000F ∈ ([8, 9, 0xA, 0xB, 0xC, 0xD, 0xF] : List Word) ↔
    op &&& 0x000F ∉ ([0, 1, 2, 3, 4, 5, 6, 7, 0xE] : List Word) := by
  have hbits : op &&& 0x000F = (0 : BitVec 12) ++ op.extractLsb 3 0 := by
    apply BitVec.eq_of_getLsbD_eq
    intro i hi
    simp only [BitVec.getLsbD_and, BitVec.getLsbD_append, BitVec.getLsbD_extractLsb]
    interval_cases i <;> simp
  rw [hbits]
  generalize op.extractLsb 3 0 = n
  revert n
  decide

theorem ne_OP0_of_majorOpcode_ne_zero {op : Word} (h : op &&& 0xF000 ≠ 0x0000) :
    op ≠ 0x0000 ∧ op ≠ 0x00E0 ∧ op ≠ 0x00EE := by
  refine ⟨?_, ?_, ?_⟩ <;> rintro rfl <;> exact h rfl

/-! ### The obligations -/

/-- Settles O1: the encoded word fits the instruction's own row, and no other row takes it. -/
theorem decodeEncodeRoundTrip : Obligations.DecodeEncodeRoundTrip := by
  intro i rest hi
  rw [encodeBytes, List.cons_append, List.cons_append, decode_cons, wordOf_bytes, decodeWord_encode i hi]
  rfl

/-- Settles O2: a row that fits a word builds an instruction whose fields give the word back. -/
theorem decodedWordEncodesBack : Obligations.DecodedWordEncodesBack :=
  fun op i h => ⟨decodeWord_wellFormed op i h, encode_of_decodeWord h⟩

/-- Settles O3: any two rows differ on a bit both masks fix. -/
theorem opcodePatternsDisjoint : Obligations.OpcodePatternsDisjoint :=
  ⟨rfl, fun _ j k hj hk => Fin.ext (opcodeTable_index_unique j.isLt k.isLt hj hk)⟩

/-- Settles O4, row by row of the map (`decodeWord_row_iff`). -/
theorem wordsOfJumpAndImmediateFormats : Obligations.WordsOfJumpAndImmediateFormats := by
  intro op
  have hrow := decodeWord_row_iff op
  have hOP0 (p : Word) : op &&& 0xFFFF = p ↔ op = p := by rw [and_mask_OP0]
  simp only [← fieldNNN_eq_and]
  exact ⟨(hrow 0).trans (hOP0 _), (hrow 1).trans (hOP0 _), (hrow 2).trans (hOP0 _),
    hrow 3, hrow 4, hrow 5, hrow 6, hrow 8, hrow 9, hrow 20, hrow 21, hrow 22⟩

/-- Settles O5, row by row of the map (`decodeWord_row_iff`). -/
theorem wordsOfRegisterPairFormats : Obligations.WordsOfRegisterPairFormats := by
  intro op
  have hrow := decodeWord_row_iff op
  rw [← fieldN_eq_and]
  exact ⟨hrow 7, hrow 10, hrow 11, hrow 12, hrow 13, hrow 14, hrow 15, hrow 16, hrow 17, hrow 18, hrow 19, hrow 23⟩

/-- Settles O6, row by row of the map (`decodeWord_row_iff`). -/
theorem wordsOfSingleRegisterFormat : Obligations.WordsOfSingleRegisterFormat := by
  intro op
  have hrow := decodeWord_row_iff op
  exact ⟨hrow 24, hrow 25, hrow 26, hrow 27, hrow 28, hrow 29, hrow 30, hrow 31, hrow 32, hrow 33, hrow 34⟩

/-- Settles O7: with every mask split at bit 12, each of the 16 major opcodes leaves only its own rows; the first case is
major opcode 0, and no other has a word of format OP0. -/
theorem unimplementedWordsExactly : Obligations.UnimplementedWordsExactly := by
  intro op
  have hmajor := majorOpcode_mem op
  have hOP0 := @ne_OP0_of_majorOpcode_ne_zero op
  rw [decodeWord_eq_error, lowNibble_mem_iff]
  simp (disch := decide) only [opcodeTable, flowRows, aluRows, indexRows, List.cons_append, List.nil_append,
    List.forall_mem_cons, List.not_mem_nil, OpcodeRow.fits, beq_eq_false_iff_ne, ne_eq,
    and_mask_OP0, and_mask_XY_iff, and_mask_X_iff, true_and]
  generalize op &&& 0xF000 = d at *
  generalize op &&& 0x000F = n at *
  generalize op &&& 0x00FF = nn at *
  simp only [List.mem_cons, List.not_mem_nil, or_false] at hmajor
  rcases hmajor with rfl | rfl | rfl | rfl | rfl | rfl | rfl | rfl | rfl | rfl | rfl | rfl | rfl | rfl | rfl | rfl
  · simp
  all_goals
    obtain ⟨hnop, hcls, hret⟩ := hOP0 (by decide)
    simp only [hnop, hcls, hret, not_false_eq_true, true_and]
    simp

/-- Settles O8: eight fixed words, evaluated. -/
theorem sampleWordsDecode : Obligations.SampleWordsDecode := by
  unfold Obligations.SampleWordsDecode
  decide

/-- Settles O9, by the word at `pc` (`step_of_word`). -/
theorem stepRunsDecodedInstruction : Obligations.StepRunsDecodedInstruction := by
  intro s i hpc hdec
  rw [decode_cons] at hdec
  rw [step_of_word s _ (s.wordAt_self hpc)]
  cases hword : decodeWord (wordOf (s.mem.peek s.pc.toNat) (s.mem.peek (s.pc.toNat + 1))) with
  | error e =>
    rw [hword] at hdec
    cases hdec
  | ok j =>
    rw [hword] at hdec
    cases hdec
    rfl

end Sys2Proof.Machine
end

section
/-! PROOFS. Control transfer (40_flow.md): NOP (R100), the jump 1NNN (R102), and the jump to its own address
(R282). -/

namespace Sys2Proof.Machine

section
variable (s : State)

theorem State.setPc_self : s.setPc s.pc = s := rfl

/-- A jump overwrites the fetch advance. -/
theorem State.setPc_advance (a : Word) : s.advance.setPc a = s.setPc a := rfl

theorem exec_nop : exec .nop s = .next s := rfl

theorem exec_jp (nnn : Word) : exec (.jp nnn) s = .next (s.setPc nnn) := rfl

/-- A Step of 1NNN, from the word at `pc`: nothing of the fetch advance is left. -/
theorem step_jp (nnn : Word) (hnnn : addrFits nnn = true) (h : s.wordAt (encode (.jp nnn))) :
    step s = .next (s.setPc nnn) := by
  rw [step_of_word s _ h, decodeWord_encode (.jp nnn) hnnn]
  exact (exec_jp s.advance nnn).trans (congrArg _ (s.setPc_advance nnn))

end

/-- Settles O16: `pc` fits NNN, so the word decodes to the jump to `pc`, which undoes the fetch advance. -/
theorem selfJumpIsFixedPoint : Obligations.SelfJumpIsFixedPoint := by
  intro s hpc hword
  have hfits : addrFits s.pc = true := decide_eq_true (by omega)
  rw [step_jp s s.pc hfits hword, s.setPc_self]

/-- Settles O21: the word part is the first row of the map (O4). -/
theorem nopChangesNothing : Obligations.NopChangesNothing :=
  ⟨exec_nop, fun op => (wordsOfJumpAndImmediateFormats op).1⟩

/-- Settles O22: the jump writes `pc`, whatever NNN is. -/
theorem jumpSetsProgramCounter : Obligations.JumpSetsProgramCounter :=
  fun nnn s => ⟨s.setPc nnn, exec_jp s nnn, rfl, (onlyWrites_setPc s nnn).onlyChanges⟩

end Sys2Proof.Machine
end

section
/-! PROOFS. Conditional skips (41_skip.md): 3XNN (R120), 4XNN (R121), 5XY0 (R122), 9XY0 (R123). -/

namespace Sys2Proof.Machine

section
variable (x y : Reg) (nn : Byte) (s : State)

theorem exec_seImm : exec (.seImm x nn) s = .next (s.skipIf (s.getV x == nn)) := rfl

theorem exec_sneImm : exec (.sneImm x nn) s = .next (s.skipIf (s.getV x != nn)) := rfl

theorem exec_seReg : exec (.seReg x y) s = .next (s.skipIf (s.getV x == s.getV y)) := rfl

theorem exec_sneReg : exec (.sneReg x y) s = .next (s.skipIf (s.getV x != s.getV y)) := rfl

end

/-- An instruction whose effect is a skip under a test adds 2 to the advanced `pc` exactly when the condition tested holds,
and writes nothing else (R124). -/
theorem exec_skip_of_iff {i : Instr} {s : State} {c : Bool} {p : Prop} [Decidable p]
    (hexec : exec i s = .next (s.skipIf c)) (hc : c = true ↔ p) :
    ∃ t, exec i s = .next t ∧ t.pc = (if p then s.pc + 2 else s.pc) ∧ OnlyChanges [.pc] s t :=
  ⟨s.skipIf c, hexec, (s.skipIf_pc c).trans (if_congr hc rfl rfl), (onlyWrites_skipIf s c).onlyChanges⟩

/-- Settles O27: each of the four is a skip (`exec_skip_of_iff`) whose test decides its comparison. -/
theorem registerSkipsMoveProgramCounter : Obligations.RegisterSkipsMoveProgramCounter :=
  fun x y nn s => ⟨exec_skip_of_iff (exec_seImm x nn s) beq_iff_eq, exec_skip_of_iff (exec_sneImm x nn s) bne_iff_ne,
    exec_skip_of_iff (exec_seReg x y s) beq_iff_eq, exec_skip_of_iff (exec_sneReg x y s) bne_iff_ne⟩

end Sys2Proof.Machine
end

section
/-! PROOFS. Registers and arithmetic (42_alu.md): load, add immediate and copy (R140 to R142), the bitwise operations (R143
to R145), the addition with its carry (R146) and the two subtractions with their no-borrow flag (R147, R149). -/

namespace Sys2Proof.Machine

section
variable (x y : Reg) (nn : Byte) (s : State)

theorem exec_ldImm : exec (.ldImm x nn) s = .next (s.setV x nn) := rfl

theorem exec_addImm : exec (.addImm x nn) s = .next (s.setV x (s.getV x + nn)) := rfl

theorem exec_ldReg : exec (.ldReg x y) s = .next (s.setV x (s.getV y)) := rfl

theorem exec_orReg : exec (.orReg x y) s = .next (s.setV x (s.getV x ||| s.getV y)) := rfl

theorem exec_andReg : exec (.andReg x y) s = .next (s.setV x (s.getV x &&& s.getV y)) := rfl

theorem exec_xorReg : exec (.xorReg x y) s = .next (s.setV x (s.getV x ^^^ s.getV y)) := rfl

theorem exec_addReg : exec (.addReg x y) s =
    .next ((s.setV x (addCarry (s.getV x) (s.getV y)).1).setFlag (addCarry (s.getV x) (s.getV y)).2) := rfl

theorem exec_sub : exec (.sub x y) s =
    .next ((s.setV x (subNoBorrow (s.getV x) (s.getV y)).1).setFlag (subNoBorrow (s.getV x) (s.getV y)).2) := rfl

theorem exec_subn : exec (.subn x y) s =
    .next ((s.setV x (subNoBorrow (s.getV y) (s.getV x)).1).setFlag (subNoBorrow (s.getV y) (s.getV x)).2) := rfl

end

/-! ### Register writes -/

section
variable (s : State) (x : Reg) (b : Byte) (f : Bool)

theorem State.getV_setV_self : (s.setV x b).getV x = b := (s.getV_setV x x b).trans (if_pos rfl)

theorem onlyRegs_setV : OnlyRegs [x] s (s.setV x b) :=
  fun r hr => (s.getV_setV x r b).trans (if_neg (List.ne_of_not_mem_cons hr))

theorem onlyRegs_setV_setFlag : OnlyRegs [x, vf] s ((s.setV x b).setFlag f) := by
  intro r hr
  obtain ⟨hx, hvf⟩ : r ≠ x ∧ r ≠ vf := by simpa using hr
  rw [State.getV_setFlag, if_neg hvf, State.getV_setV, if_neg hx]

end

section
variable {i : Instr} {s : State} {x : Reg}

/-- An instruction whose effect is one register write. -/
theorem exec_of_setV {b : Byte} (hexec : exec i s = .next (s.setV x b)) :
    ∃ t, exec i s = .next t ∧ t.getV x = b ∧ OnlyRegs [x] s t ∧ OnlyChanges [.regs] s t :=
  ⟨s.setV x b, hexec, s.getV_setV_self x b, onlyRegs_setV s x b, (onlyWrites_setV s x b).onlyChanges⟩

/-- An instruction that writes its result and then the flag: for X = 0xF the flag overwrites the result (R154, D13). -/
theorem exec_of_setV_setFlag {b : Byte} {f : Bool} (hexec : exec i s = .next ((s.setV x b).setFlag f)) :
    ∃ t, exec i s = .next t ∧ (x ≠ vf → t.getV x = b) ∧ t.getV vf = flagByte f ∧
      OnlyRegs [x, vf] s t ∧ OnlyChanges [.regs] s t := by
  refine ⟨_, hexec, fun hx => ?_, ?_, onlyRegs_setV_setFlag s x b f,
    ((onlyWrites_setV s x b).trans (onlyWrites_setFlag _ f)).onlyChanges⟩
  · rw [State.getV_setFlag, if_neg hx, State.getV_setV_self]
  · rw [State.getV_setFlag, if_pos rfl]

end

/-! ### Carry and borrow -/

section
variable (a b : Byte)

theorem flagByte_addCarry : flagByte (addCarry a b).2 = if a.toNat + b.toNat > 255 then 1 else 0 :=
  if_congr (addCarry_spec a b).2 rfl rfl

/-- The flag is 0 exactly when a borrow occurred (R152). -/
theorem flagByte_subNoBorrow : flagByte (subNoBorrow a b).2 = if a.toNat < b.toNat then 0 else 1 := by
  rw [← ite_not]
  exact if_congr ((subNoBorrow_spec a b).2.trans not_lt.symm) rfl rfl

theorem subNoBorrow_toNat : (subNoBorrow a b).1.toNat = (a.toNat + 256 - b.toNat) % 256 := by
  rw [(subNoBorrow_spec a b).1, BitVec.toNat_sub]
  have hb := b.isLt
  omega

end

/-- 8XY5 and 8XY7 are one subtraction with the operands in either order (R147, R149). -/
theorem exec_of_subtraction {i : Instr} {s : State} {x : Reg} (a b : Byte)
    (hexec : exec i s = .next ((s.setV x (subNoBorrow a b).1).setFlag (subNoBorrow a b).2)) :
    ∃ t, exec i s = .next t ∧ (x ≠ vf → (t.getV x).toNat = (a.toNat + 256 - b.toNat) % 256) ∧
      t.getV vf = (if a.toNat < b.toNat then 0 else 1) ∧ OnlyRegs [x, vf] s t ∧ OnlyChanges [.regs] s t := by
  obtain ⟨t, ht, hresult, hflag, hframe⟩ := exec_of_setV_setFlag hexec
  exact ⟨t, ht, fun hx => (congrArg BitVec.toNat (hresult hx)).trans (subNoBorrow_toNat a b),
    hflag.trans (flagByte_subNoBorrow a b), hframe⟩

/-! ### The obligations -/

/-- Settles O29: three register writes (`exec_of_setV`); the addition of bytes is modulo 256. -/
theorem loadAddCopyIntoRegister : Obligations.LoadAddCopyIntoRegister := by
  intro x y nn s
  refine ⟨exec_of_setV (exec_ldImm x nn s), ?_, exec_of_setV (exec_ldReg x y s)⟩
  obtain ⟨t, ht, hsum, hframe⟩ := exec_of_setV (exec_addImm x nn s)
  exact ⟨t, ht, (congrArg BitVec.toNat hsum).trans (BitVec.toNat_add ..), hframe⟩

/-- Settles O30: three register writes (`exec_of_setV`), read bit by bit. -/
theorem logicCombinesBitwise : Obligations.LogicCombinesBitwise := by
  intro x y s
  refine ⟨?_, ?_, ?_⟩
  · obtain ⟨t, ht, hor, hframe⟩ := exec_of_setV (exec_orReg x y s)
    exact ⟨t, ht, fun k => by rw [hor, BitVec.getElem_or], hframe⟩
  · obtain ⟨t, ht, hand, hframe⟩ := exec_of_setV (exec_andReg x y s)
    exact ⟨t, ht, fun k => by rw [hand, BitVec.getElem_and], hframe⟩
  · obtain ⟨t, ht, hxor, hframe⟩ := exec_of_setV (exec_xorReg x y s)
    exact ⟨t, ht, fun k => by rw [hxor, BitVec.getElem_xor], hframe⟩

/-- Settles O31: the result is written and then the carry (`exec_of_setV_setFlag`), both from `addCarry` of the old
operands. -/
theorem addSetsCarry : Obligations.AddSetsCarry := by
  intro x y s
  obtain ⟨t, ht, hsum, hcarry, hframe⟩ := exec_of_setV_setFlag (exec_addReg x y s)
  exact ⟨t, ht, fun hx => (congrArg BitVec.toNat (hsum hx)).trans (addCarry_spec ..).1,
    hcarry.trans (flagByte_addCarry ..), hframe⟩

/-- Settles O32: `exec_of_subtraction`, once for each order of the operands. -/
theorem subtractionsSetNoBorrow : Obligations.SubtractionsSetNoBorrow :=
  fun x y s => ⟨exec_of_subtraction _ _ (exec_sub x y s), exec_of_subtraction _ _ (exec_subn x y s)⟩

end Sys2Proof.Machine
end

section
/-! PROOFS. Index register and memory (43_index_memory.md): the index load ANNN (R170), the stores of FX33 (R173) and
FX55 (R174), and the register load FX65 (R175). -/

namespace Sys2Proof.Machine

section
variable (x : Reg) (s : State)

theorem exec_ldI (nnn : Word) : exec (.ldI nnn) s = .next (s.setI nnn) := rfl

theorem exec_ldB : exec (.ldB x) s = storeAtI (bcdDigits (s.getV x)) s := rfl

theorem exec_ldMemVx : exec (.ldMemVx x) s = storeAtI (s.regsUpTo x) s := rfl

/-- FX65 whose last address is in memory completes, and loads the X + 1 bytes from `I` up (R175). -/
theorem execLdVxMem_of_fits (h : s.i.toNat + x.val ≤ 4095) : exec (.ldVxMem x) s =
    .next (s.loadRegs ((List.range (x.val + 1)).map fun k => s.mem.peek (s.i.toNat + k))) := by
  have hfit : x.val + 1 = 0 ∨ s.i.toNat + (x.val + 1) ≤ 4096 := .inr (by omega)
  simp only [exec, execLdVxMem, State.base, Memory.readBlock_eq, if_pos hfit]

/-- FX65 whose last address is outside memory faults (R52, R175). -/
theorem execLdVxMem_of_not_fits (h : s.i.toNat + x.val > 4095) : exec (.ldVxMem x) s = .fault .memoryOutOfBounds := by
  have hfit : ¬ (x.val + 1 = 0 ∨ s.i.toNat + (x.val + 1) ≤ 4096) := by omega
  simp only [exec, execLdVxMem, State.base, Memory.readBlock_eq, if_neg hfit, raise]

end

/-! ### The bytes a store leaves and the digits it writes -/

/-- A block written at `a` changes no byte outside it (R176). -/
theorem onlyBytes_setMem_pokes (s : State) (a : Nat) (bytes : List Byte) {n : Nat} (hlen : bytes.length = n) :
    OnlyBytes a n s (s.setMem (s.mem.pokes a bytes)) :=
  fun b hb => Memory.peek_pokes_outside s.mem a b bytes (hlen ▸ hb)

/-- The three digits of a byte, most significant first: each is below 10, so the byte that stores it holds it whole (R173). -/
theorem bcdDigits_eq_digits (b : Byte) : ∃ hundreds tens ones : Byte, bcdDigits b = [hundreds, tens, ones] ∧
    hundreds.toNat = b.toNat / 100 ∧ tens.toNat = b.toNat / 10 % 10 ∧ ones.toNat = b.toNat % 10 := by
  have hb : b.toNat < 256 := b.isLt
  refine ⟨_, _, _, rfl, ?_, ?_, ?_⟩ <;> exact (BitVec.toNat_ofNat ..).trans (Nat.mod_eq_of_lt (by omega))

/-! ### A block of registers loaded from memory -/

/-- Registers loaded from the X + 1 bytes from `a` up: register `r` up to X takes byte `r`, those above X are kept (R175). -/
theorem State.getV_loadRegs_block (s : State) (a : Nat) (x r : Reg) :
    (s.loadRegs ((List.range (x.val + 1)).map fun k => s.mem.peek (a + k))).getV r =
      if r ≤ x then s.mem.peek (a + r.val) else s.getV r := by
  have hlen : ((List.range (x.val + 1)).map fun k => s.mem.peek (a + k)).length = x.val + 1 := by simp
  rw [State.loadRegs_getV _ _ _ (hlen.le.trans x.isLt)]
  by_cases hr : r ≤ x
  · rw [dif_pos ((Nat.lt_succ_of_le hr).trans_eq hlen.symm), if_pos hr, List.getElem_map, List.getElem_range]
  · rw [dif_neg fun h => hr (Nat.le_of_lt_succ (h.trans_eq hlen)), if_neg hr]

/-! ### The obligations -/

/-- Settles O35: one write of `I`; a well-formed NNN is below 0x1000 (R74). -/
theorem loadIndexSetsIndex : Obligations.LoadIndexSetsIndex :=
  fun nnn s hnnn => ⟨s.setI nnn, exec_ldI s nnn, rfl, of_decide_eq_true hnnn, (onlyWrites_setI s nnn).onlyChanges⟩

/-- Settles O37: a store through `I` (`storeAtI_next`) of the three digits (`bcdDigits_eq_digits`). -/
theorem decimalDigitsStored : Obligations.DecimalDigitsStored := by
  intro x s
  obtain ⟨hundreds, tens, ones, hdigits, hhundreds, htens, hones⟩ := bcdDigits_eq_digits (s.getV x)
  have hbytes := fun k => Memory.peek_pokes_inside s.mem s.i.toNat k [hundreds, tens, ones]
  rw [exec_ldB, hdigits]
  refine ⟨fun hfit => ⟨_, storeAtI_next _ s (Nat.succ_le_succ hfit), ?_, ?_, ?_, onlyBytes_setMem_pokes s _ _ rfl,
    (onlyWrites_setMem s _).onlyChanges⟩, fun hout => ?_⟩
  · exact (congrArg BitVec.toNat (hbytes 0 (by simp))).trans hhundreds
  · exact (congrArg BitVec.toNat (hbytes 1 (by simp))).trans htens
  · exact (congrArg BitVec.toNat (hbytes 2 (by simp))).trans hones
  · exact storeAtI_fault _ s (List.cons_ne_nil _ _) (Nat.succ_lt_succ hout)

/-- Settles O38: the stored block is read back register by register (`Memory.peek_pokes_regsUpTo`). -/
theorem registersStoredAtIndex : Obligations.RegistersStoredAtIndex := by
  intro x s
  have hlen : (s.regsUpTo x).length = x.val + 1 := s.regsUpTo_length x
  refine ⟨fun hfit => ⟨_, execLdMemVx_of_fits x s hfit, fun r hr => Memory.peek_pokes_regsUpTo s.mem _ s x r hr,
    onlyBytes_setMem_pokes s _ _ hlen, (onlyWrites_setMem s _).onlyChanges⟩, fun hout => ?_⟩
  rw [exec_ldMemVx]
  exact storeAtI_fault _ s (List.ne_nil_of_length_eq_add_one hlen) (by omega)

/-- Settles O39: the block read fits or faults; loaded, it is read register by register (`State.getV_loadRegs_block`). -/
theorem registersLoadedFromIndex : Obligations.RegistersLoadedFromIndex := by
  intro x s
  refine ⟨fun hfit => ⟨_, execLdVxMem_of_fits x s hfit, fun r hr => ?_, fun r hr => ?_,
    (onlyWrites_loadRegs s _).onlyChanges⟩, execLdVxMem_of_not_fits x s⟩
  · rw [State.getV_loadRegs_block, if_pos hr]
  · rw [State.getV_loadRegs_block, if_neg hr.not_ge]

end Sys2Proof.Machine
end

section
/-! PROOFS. Display (44_display.md): the clear operation 00E0 (R190). -/

namespace Sys2Proof.Machine

theorem exec_cls (s : State) : exec .cls s = .next (s.setDisp Display.clear) := rfl

/-- Settles O41: one write of the display, every cell of which reads false (`Display.cell_clear`). -/
theorem clearScreenClearsEveryCell : Obligations.ClearScreenClearsEveryCell :=
  fun s => ⟨s.setDisp Display.clear, exec_cls s, Display.cell_clear, (onlyWrites_setDisp s _).onlyChanges⟩

end Sys2Proof.Machine
end

section
/-! PROOFS. Keypad and timer instructions (45_keypad_timers.md): the timer moves FX07 (R212), FX15 (R214), FX18 (R215). -/

namespace Sys2Proof.Machine

section
variable (x : Reg) (s : State)

theorem exec_ldVxDt : exec (.ldVxDt x) s = .next (s.setV x s.dt) := rfl

theorem exec_ldDtVx : exec (.ldDtVx x) s = .next (s.setDt (s.getV x)) := rfl

theorem exec_ldStVx : exec (.ldStVx x) s = .next (s.setSt (s.getV x)) := rfl

end

/-- Settles O45: FX07 is one register write (`exec_of_setV`), FX15 and FX18 each one write of their timer. -/
theorem timerRegistersMove : Obligations.TimerRegistersMove := by
  intro x s
  refine ⟨exec_of_setV (exec_ldVxDt x s), ?_, ?_⟩
  · exact ⟨_, exec_ldDtVx x s, s.setDt_dt _, (onlyWrites_setDt s _).onlyChanges⟩
  · exact ⟨_, exec_ldStVx x s, s.setSt_st _, (onlyWrites_setSt s _).onlyChanges⟩

end Sys2Proof.Machine
end

section
/-! PROOFS. Exceptions (60_exceptions.md): which fault ends an instruction (R233 to R236) and a Step (R232, R237), that
there is no other end (R230), and the two operations that cannot fail, TimerStep (R242) and DisplayRead (R246). -/

namespace Sys2Proof.Machine

/-! ### The call stack: 2NNN and 00EE (R103, R101) -/

section
variable (nnn : Word) (s : State)

theorem execCall_of_free (h : s.sp.val < 16) : exec (.call nnn) s =
    .next { s with pc := nnn, stack := s.stack.set s.sp.val s.pc, sp := ⟨s.sp.val + 1, by omega⟩ } := by
  simp only [exec, execCall, (State.push_eq_some ..).2 ⟨h, rfl⟩]
  rfl

theorem execCall_of_full (h : s.sp.val = 16) : exec (.call nnn) s = .fault .stackOverflow := by
  simp only [exec, execCall, (State.push_eq_none ..).2 h, raise]

theorem execRet_of_nonempty (h : 0 < s.sp.val) : exec .ret s =
    .next { s with pc := s.stack[s.sp.val - 1]'(by omega), sp := ⟨s.sp.val - 1, by omega⟩ } := by
  simp only [exec, execRet, (State.pop_eq_some ..).2 ⟨h, rfl, rfl⟩]
  rfl

theorem execRet_of_empty (h : s.sp.val = 0) : exec .ret s = .fault .stackUnderflow := by
  simp only [exec, execRet, (State.pop_eq_none s).2 h, raise]

end

/-! ### The other instructions with two ends: EX9E, EXA1, FX0A, DXYN -/

/-- A byte up to 15 names a key (R210, R211). -/
theorem exists_keyIndex {b : Byte} (h : ¬ b.toNat > 15) : ∃ k, keyIndex b = some k :=
  ⟨⟨b.toNat, by omega⟩, (keyIndex_eq_some ..).2 rfl⟩

section
variable (x y : Reg) (n : Nat) (s : State)

theorem execSkp_of_key (h : ¬ (s.getV x).toNat > 15) : ∃ t, exec (.skp x) s = .next t := by
  obtain ⟨k, hk⟩ := exists_keyIndex h
  simp only [exec, execSkp, hk]
  exact ⟨_, rfl⟩

theorem execSkp_of_not_key (h : (s.getV x).toNat > 15) : exec (.skp x) s = .fault .invalidKeyIndex := by
  simp only [exec, execSkp, (keyIndex_eq_none _).2 h, raise]

theorem execSknp_of_key (h : ¬ (s.getV x).toNat > 15) : ∃ t, exec (.sknp x) s = .next t := by
  obtain ⟨k, hk⟩ := exists_keyIndex h
  simp only [exec, execSknp, hk]
  exact ⟨_, rfl⟩

theorem execSknp_of_not_key (h : (s.getV x).toNat > 15) : exec (.sknp x) s = .fault .invalidKeyIndex := by
  simp only [exec, execSknp, (keyIndex_eq_none _).2 h, raise]

theorem execLdVxK_completes : ∃ t, exec (.ldVxK x) s = .next t := by
  simp only [exec, execLdVxK]
  split <;> exact ⟨_, rfl⟩

theorem execDrw_of_fits (h : ¬ (n > 0 ∧ s.i.toNat + n - 1 > 4095)) : ∃ t, exec (.drw x y n) s = .next t := by
  have hfit : n = 0 ∨ s.i.toNat + n ≤ 4096 := by omega
  simp only [exec, execDrw, State.base, Memory.readBlock_eq, if_pos hfit]
  exact ⟨_, rfl⟩

theorem execDrw_of_not_fits (h : n > 0 ∧ s.i.toNat + n - 1 > 4095) :
    exec (.drw x y n) s = .fault .memoryOutOfBounds := by
  have hfit : ¬ (n = 0 ∨ s.i.toNat + n ≤ 4096) := by omega
  simp only [exec, execDrw, State.base, Memory.readBlock_eq, if_neg hfit, raise]

end

/-! ### Which fault ends an instruction (R233 to R236) -/

/-- The outcome is this fault, or, where there is none, a next state. -/
def EndsAs (o : Option Fault) (r : Result) : Prop :=
  match o with
  | some f => r = .fault f
  | none => ∃ t, r = .next t

/-- A row of the fault table: the fault under its condition, a next state otherwise. -/
theorem endsAs_ite {c : Prop} [Decidable c] {f : Fault} {r : Result} (hfault : c → r = .fault f)
    (hnext : ¬ c → ∃ t, r = .next t) : EndsAs (if c then some f else none) r := by
  split
  · exact hfault ‹c›
  · exact hnext ‹¬ c›

theorem EndsAs.eq_fault_iff {o : Option Fault} {r : Result} (h : EndsAs o r) (f : Fault) : r = .fault f ↔ o = some f := by
  cases o with
  | none =>
    obtain ⟨t, rfl⟩ := h
    constructor <;> nofun
  | some g =>
    obtain rfl : r = .fault g := h
    constructor <;> rintro ⟨⟩ <;> rfl

/-- Eight instructions have a row each in the table of faults; FX0A has two ends, both next states; the others are their
one effect. -/
theorem exec_endsAs (i : Instr) (s : State) : EndsAs (faultOf i s) (exec i s) := by
  cases i
  case ret =>
    exact endsAs_ite (execRet_of_empty s) fun h => ⟨_, execRet_of_nonempty s (Nat.pos_of_ne_zero h)⟩
  case call nnn =>
    exact endsAs_ite (execCall_of_full nnn s) fun h => ⟨_, execCall_of_free nnn s (by omega)⟩
  case ldB x =>
    obtain ⟨hfit, hout⟩ := decimalDigitsStored x s
    exact endsAs_ite hout fun h => (hfit (not_lt.1 h)).imp fun _ ht => ht.1
  case ldMemVx x =>
    exact endsAs_ite (registersStoredAtIndex x s).2 fun h => ⟨_, execLdMemVx_of_fits x s (not_lt.1 h)⟩
  case ldVxMem x =>
    exact endsAs_ite (execLdVxMem_of_not_fits x s) fun h => ⟨_, execLdVxMem_of_fits x s (not_lt.1 h)⟩
  case drw x y n => exact endsAs_ite (execDrw_of_not_fits x y n s) (execDrw_of_fits x y n s)
  case skp x => exact endsAs_ite (execSkp_of_not_key x s) (execSkp_of_key x s)
  case sknp x => exact endsAs_ite (execSknp_of_not_key x s) (execSknp_of_key x s)
  case ldVxK x => exact execLdVxK_completes x s
  all_goals exact ⟨_, rfl⟩

theorem exec_eq_fault_iff (i : Instr) (s : State) (f : Fault) : exec i s = .fault f ↔ faultOf i s = some f :=
  (exec_endsAs i s).eq_fault_iff f

/-- No condition for a fault reads `pc`. -/
theorem faultOf_advance (i : Instr) (s : State) : faultOf i s.advance = faultOf i s := by
  cases i <;> rfl

/-- No instruction raises the fault of Load (R231). -/
theorem faultOf_ne_romTooLarge (i : Instr) (s : State) : faultOf i s ≠ some .romTooLarge := by
  cases i
  case ret | call | ldB | ldMemVx | ldVxMem | drw | skp | sknp =>
    simp only [faultOf]
    split <;> nofun
  all_goals nofun

/-! ### Which fault ends a Step (R237): at fetch, at decode, at execution -/

section
variable {s : State} {op : Word}

theorem step_outside (h : 0xFFF ≤ s.pc.toNat) : step s = .fault .memoryOutOfBounds := by
  simp only [step, s.fetchDecode_outside (by omega), raise]

theorem step_of_no_instruction (hop : s.wordAt op) (h : ∀ i, decodeWord op ≠ .ok i) :
    step s = .fault (.unimplementedOpcode op) := by
  cases hdec : decodeWord op with
  | ok i => exact absurd hdec (h i)
  | error e =>
    obtain ⟨rfl, -⟩ := (decodeWord_eq_error op e).1 hdec
    rw [step_of_word s op hop, hdec]
    rfl

theorem step_of_instruction {i : Instr} (hop : s.wordAt op) (hdec : decodeWord op = .ok i) :
    step s = exec i s.advance := by
  rw [step_of_word s op hop, hdec]

theorem step_eq_fault_iff_of_instruction {i : Instr} (hop : s.wordAt op) (hdec : decodeWord op = .ok i) (f : Fault) :
    step s = .fault f ↔ faultOf i s = some f := by
  rw [step_of_instruction hop hdec, exec_eq_fault_iff, faultOf_advance]

end

/-! ### DisplayRead (R246) -/

theorem displayRead_length (s : State) : (displayRead s).length = 2048 := by simp [displayRead]

theorem displayRead_getElem? (s : State) (c : Fin 2048) : (displayRead s)[c.val]? = some (s.disp.cell c) := by
  simp [displayRead]

/-- Cell `y * 64 + x` is the one at row `y` and column `x` (R192). -/
theorem Display.cell_rowMajor (d : Display) (x y : Nat) (hx : x < 64) (hy : y < 32) :
    d.cell ⟨y * 64 + x, by omega⟩ = d[y][x] := by
  have hrow : (y * 64 + x) / 64 = y := by omega
  have hcol : (y * 64 + x) % 64 = x := by omega
  simp only [Display.cell, hrow, hcol]

/-! ### The obligations -/

/-- Settles O54, row by row of the fault table (`exec_endsAs`). -/
theorem executionFaultsExactly : Obligations.ExecutionFaultsExactly := exec_endsAs

/-- Settles O11: where no word can be fetched that is the fault; else the word at `pc` is no instruction or one. -/
theorem stepFaultsExactly : Obligations.StepFaultsExactly := by
  intro s f
  constructor
  · intro h
    by_cases hpc : 0xFFF ≤ s.pc.toNat
    · rw [step_outside hpc] at h
      exact .inl ⟨hpc, (Host.Outcome.fault.inj h).symm⟩
    · have hop := s.wordAt_self (by omega)
      by_cases hdec : ∃ i, decodeWord (wordOf (s.mem.peek s.pc.toNat) (s.mem.peek (s.pc.toNat + 1))) = .ok i
      · obtain ⟨i, hi⟩ := hdec
        exact .inr (.inr ⟨_, i, hop, hi, (step_eq_fault_iff_of_instruction hop hi f).1 h⟩)
      · have hnone := not_exists.1 hdec
        rw [step_of_no_instruction hop hnone] at h
        exact .inr (.inl ⟨_, hop, hnone, (Host.Outcome.fault.inj h).symm⟩)
  · rintro (⟨hpc, rfl⟩ | ⟨op, hop, hnone, rfl⟩ | ⟨op, i, hop, hi, hf⟩)
    · exact step_outside hpc
    · exact step_of_no_instruction hop hnone
    · exact (step_eq_fault_iff_of_instruction hop hi f).2 hf

/-- Settles O12: no Step is refused (`step_ne_refused`), and none of the three kinds of fault (O11) is that of Load. -/
theorem stepNeverRefuses : Obligations.StepNeverRefuses := by
  intro s
  cases hstep : step s with
  | next t => exact .inl ⟨t, rfl⟩
  | refused e => exact absurd hstep (step_ne_refused s e)
  | fault f =>
    refine .inr ⟨f, rfl, ?_⟩
    rintro rfl
    obtain ⟨-, h⟩ | ⟨_, -, -, h⟩ | ⟨_, i, -, -, h⟩ := (stepFaultsExactly s _).1 hstep
    · cases h
    · cases h
    · exact faultOf_ne_romTooLarge i s h

/-- Settles O23: CALL with a free slot (`execCall_of_free`) writes that one slot. -/
theorem callPushesReturnAddress : Obligations.CallPushesReturnAddress := by
  intro nnn s
  refine ⟨fun hfree => ?_, execCall_of_full nnn s⟩
  have hexec := execCall_of_free nnn s hfree
  exact ⟨_, hexec, rfl, rfl, Vector.getElem_set_self hfree, fun k hk => Vector.getElem_set_ne hfree k.isLt hk.symm,
    (exec_onlyWrites _ hexec).onlyChanges⟩

/-- Settles O24: RET from a stack that holds an address (`execRet_of_nonempty`) writes no slot. -/
theorem returnPopsReturnAddress : Obligations.ReturnPopsReturnAddress := by
  intro s
  refine ⟨fun hpos => ?_, execRet_of_empty s⟩
  have hexec := execRet_of_nonempty s hpos
  exact ⟨_, hexec, rfl, rfl, fun _ => rfl, (exec_onlyWrites _ hexec).onlyChanges⟩

/-- Settles O46: each timer counts down (`countDown_toNat`), and no other item is written. -/
theorem timerStepCountsDown : Obligations.TimerStepCountsDown := by
  have hcount (b : Byte) : (countDown b).toNat = if b.toNat > 0 then b.toNat - 1 else 0 := by
    rw [countDown_toNat]
    split <;> omega
  intro s
  refine ⟨hcount s.dt, hcount s.st, ?_, (timerStep_onlyWrites s).onlyChanges⟩
  rw [timerStep_alert, decide_eq_true_iff]

/-- Settles O53: the list of all cells, read at the place of row `y` and column `x` (`Display.cell_rowMajor`). -/
theorem displayReadGivesCells : Obligations.DisplayReadGivesCells := by
  refine fun _ s => ⟨displayRead_length s, fun x y hx hy => ?_, rfl⟩
  rw [← s.disp.cell_rowMajor x y hx hy]
  exact displayRead_getElem? s ⟨y * 64 + x, by omega⟩

end Sys2Proof.Machine
end

section
/-! PROOFS. Host operations and hazards: Load (70_reset_and_hazards.md R272 to R274), Reset with the default FONT (R271),
KeySet (60_exceptions.md R245), and Steps over memory that reads as zero (R283). -/

namespace Sys2Proof.Machine

/-! ### Load and KeySet -/

section
variable (bytes : List Byte) (s : State)

theorem load_of_fits (h : bytes.length ≤ 3584) : load bytes s = .next (s.setMem (s.mem.pokes 0x200 bytes)) :=
  if_neg h.not_gt

theorem load_of_not_fits (h : bytes.length > 3584) : load bytes s = .fault .romTooLarge := if_pos h

/-- A Load that completes has stored the image from 0x200 up, and that is all (R272, R274). -/
theorem load_next {t : State} (h : load bytes s = .next t) : t = s.setMem (s.mem.pokes 0x200 bytes) := by
  by_cases hfit : bytes.length ≤ 3584
  · rw [load_of_fits bytes s hfit] at h
    exact (Host.Outcome.next.inj h).symm
  · rw [load_of_not_fits bytes s (not_le.1 hfit)] at h
    cases h

end

section
variable (index : Nat) (pressed : Bool) (s : State)

theorem keySet_of_key (h : index < 16) :
    keySet index pressed s = .next { s with key := s.key.set index pressed } := dif_pos h

theorem keySet_of_not_key (h : index > 15) : keySet index pressed s = .fault .invalidKeyIndex := dif_neg (not_lt.2 h)

end

/-! ### The memory of Reset -/

/-- The default FONT, stored, is what an empty memory reads as (R33, R65). -/
theorem Memory.peek_ofFont_default (a : Nat) : (Memory.ofFont defaultFont).peek a = Memory.resetByte a := by
  by_cases h : a < 80
  · exact (Memory.peek_ofFont_inside defaultFont a h).trans (List.getD_eq_getElem font 0 h).symm
  · rw [Memory.peek_ofFont_above defaultFont a (not_lt.1 h), Memory.resetByte_of_font_le a (not_lt.1 h)]

/-- So the memory after Reset with the default FONT, in canonical form, lists no cell. -/
theorem Memory.ofFont_default : Memory.ofFont defaultFont = [] :=
  Memory.eq_of_peek_eq (Memory.wf_ofFont defaultFont) Memory.wf_nil Memory.peek_ofFont_default

/-! ### Steps over zero bytes -/

/-- Two zero bytes at `pc` are NOP: the Step is the fetch advance (R77, R100). -/
theorem step_of_zero_bytes (s : State) (hpc : s.pc.toNat + 1 ≤ 4095) (hhigh : s.mem.peek s.pc.toNat = 0)
    (hlow : s.mem.peek (s.pc.toNat + 1) = 0) : step s = .next s.advance := by
  have hword : s.wordAt (encode .nop) := ⟨hpc, hhigh, hlow⟩
  rw [step_of_instruction hword (decodeWord_encode .nop rfl), exec_nop]

/-- Inside memory the fetch advance does not wrap. -/
theorem State.advance_pc_toNat (s : State) (h : s.pc.toNat + 2 ≤ 0x1000) : s.advance.pc.toNat = s.pc.toNat + 2 := by
  rw [State.advance_pc]
  bv_omega

/-- `n` Steps over zero bytes: the first is a fetch advance, and the others run from there. -/
theorem run_of_zero_bytes (n : Nat) (s : State) (hpc : s.pc.toNat + 2 * n ≤ 0x1000)
    (hzero : ∀ a, s.pc.toNat ≤ a → a < s.pc.toNat + 2 * n → s.mem.peek a = 0) :
    Host.Core.run Sys2Proof.core n s = .next (s.setPc (s.pc + BitVec.ofNat 16 (2 * n))) := by
  induction n generalizing s with
  | zero =>
    have hsame : s.pc + BitVec.ofNat 16 (2 * 0) = s.pc := BitVec.add_zero _
    rw [hsame, State.setPc_self]
    rfl
  | succ n ih =>
    have hstep : step s = .next s.advance :=
      step_of_zero_bytes s (by omega) (hzero _ le_rfl (by omega)) (hzero _ (by omega) (by omega))
    have hadv : s.advance.pc.toNat = s.pc.toNat + 2 := s.advance_pc_toNat (by omega)
    have hsum : s.pc + 2 + BitVec.ofNat 16 (2 * n) = s.pc + BitVec.ofNat 16 (2 * (n + 1)) := by
      rw [BitVec.add_assoc, Nat.mul_succ, Nat.add_comm, BitVec.ofNat_add]
      rfl
    rw [run_succ_of_next n s s.advance hstep,
      ih s.advance (by omega) fun a ha ha' => hzero a (by omega) (by omega),
      State.setPc_advance, State.advance_pc, hsum]

/-! ### The obligations -/

/-- Settles O19, by induction on the number of Steps (`run_of_zero_bytes`). -/
theorem runsThroughZeroBytes : Obligations.RunsThroughZeroBytes := run_of_zero_bytes

/-- Settles O49: one block written from 0x200 up, read back byte by byte. -/
theorem loadCopiesImage : Obligations.LoadCopiesImage :=
  fun bytes s => ⟨fun hfit => ⟨_, load_of_fits bytes s hfit, fun k hk => Memory.peek_pokes_inside s.mem 0x200 k bytes hk⟩,
    load_of_not_fits bytes s⟩

/-- Settles O50: the block is the one thing that Load writes (`load_next`). -/
theorem loadWritesNothingElse : Obligations.LoadWritesNothingElse := by
  intro bytes s t h
  obtain rfl := load_next bytes s h
  exact ⟨onlyBytes_setMem_pokes s 0x200 bytes rfl, (onlyWrites_setMem s _).onlyChanges⟩

/-- Settles O48: one latch of the vector is written, or the index is none of its places. -/
theorem keySetWritesOneLatch : Obligations.KeySetWritesOneLatch := by
  intro index pressed s
  refine ⟨fun hkey => ⟨_, keySet_of_key index pressed s hkey, fun k => ?_, ?_⟩, keySet_of_not_key index pressed s⟩
  · exact (Vector.getElem_set hkey k.isLt).trans (if_congr eq_comm rfl rfl)
  · exact OnlyWrites.onlyChanges (by simp [onlyWrites_iff])

/-- Settles O52: memory is the one item that Reset does not take from State.reset by name. -/
theorem resetIsPowerOnState : Obligations.ResetIsPowerOnState := by
  intro s
  rw [hostReset, Memory.ofFont_default]
  rfl

end Sys2Proof.Machine
end

section
/-! PROOFS. The Step (30_encoding.md section 2): the fetch outside memory (D6), the word stored by State.withFetchWord (R53),
and the byte that a Step is given (R8, R151). -/

namespace Sys2Proof.Machine

/-! ### The word stored for the next fetch -/

/-- A word of the opcode table decodes as the decoder's word of its low bits. -/
theorem decodeWord_of_decodeTableWord {nbits w : Nat} {i : Instr} (h : decodeTableWord nbits w = some i) :
    decodeWord (BitVec.ofNat 16 (w % 2 ^ nbits)) = .ok i := by
  simp only [decodeTableWord, decode_cons, wordOf_bytes] at h
  cases hdec : decodeWord (BitVec.ofNat 16 (w % 2 ^ nbits)) with
  | error e =>
    rw [hdec] at h
    cases h
  | ok j =>
    rw [hdec] at h
    cases h
    rfl

/-- Wherever `pc` stood, it stands at a fetchable address after the store. -/
theorem State.withFetchWord_pc_le (s : State) (nbits w : Nat) : (s.withFetchWord nbits w).pc.toNat + 1 ≤ 4095 := by
  simp only [State.withFetchWord]
  split
  · rename_i hfit
    obtain h | h := (blockFits_iff _ _).1 hfit
    · cases h
    · omega
  · decide

/-- The stored word is the word at `pc`, high byte first (R53). -/
theorem State.wordAt_withFetchWord (s : State) (nbits w : Nat) :
    (s.withFetchWord nbits w).wordAt (BitVec.ofNat 16 (w % 2 ^ nbits)) := by
  have hbytes := fun k => Memory.peek_pokes_inside s.mem (s.withFetchWord nbits w).pc.toNat k
    [highByte (BitVec.ofNat 16 (w % 2 ^ nbits)), lowByte (BitVec.ofNat 16 (w % 2 ^ nbits))]
  exact ⟨s.withFetchWord_pc_le nbits w, hbytes 0 (by simp), hbytes 1 (by simp)⟩

/-! ### The byte of a Step and the count of draws -/

section
variable (r : Byte) (s : State) (n : Nat)

/-- An instruction in a Step given its byte neither reads nor writes the count of draws, CXNN included (R32). -/
theorem execWith_withDraws (i : Instr) : execWith r i { s with draws := n } = withDraws n (execWith r i s) := by
  by_cases h : ∃ x nn, i = .rnd x nn
  · obtain ⟨x, nn, rfl⟩ := h
    rfl
  · have hother : ∀ x nn, i ≠ .rnd x nn := fun x nn e => h ⟨x, nn, e⟩
    rw [execWith_of_not_rnd r i _ hother, execWith_of_not_rnd r i s hother, exec_withDraws s n i hother]

theorem stepWith_withDraws : stepWith r { s with draws := n } = withDraws n (stepWith r s) := by
  have hfetch : ({ s with draws := n } : State).fetchDecode = s.fetchDecode := rfl
  simp only [stepWith, hfetch]
  cases s.fetchDecode with
  | error f => rfl
  | ok i => exact execWith_withDraws r s.advance n i

/-- Behind the interface an instruction is the one given the next free byte: only CXNN reads it, and only CXNN moves the
count. -/
theorem execWith_freeByte (i : Instr) :
    execWith (Config.randomByte s.draws) i s = withDraws s.draws (exec i s) := by
  by_cases h : ∃ x nn, i = .rnd x nn
  · obtain ⟨x, nn, rfl⟩ := h
    rfl
  · have hother : ∀ x nn, i ≠ .rnd x nn := fun x nn e => h ⟨x, nn, e⟩
    rw [execWith_of_not_rnd _ i s hother]
    exact exec_withDraws s s.draws i hother

/-- A Step with no CXNN at `pc` is the same for every byte: it is the Step without one. -/
theorem stepWith_eq_step (h : ∀ op x nn, s.wordAt op → decodeWord op ≠ .ok (.rnd x nn)) : stepWith r s = step s := by
  obtain hstep | ⟨x, nn, hfd, -⟩ := stepWith_cases r s
  · exact hstep
  · obtain ⟨op, hop, hdec⟩ := State.fetchDecode_ok hfd
    exact absurd hdec (h op x nn hop)

/-- CXNN in a Step given the byte `r`: one register is written after the fetch advance (R151). -/
theorem stepWith_rnd {op : Word} {x : Reg} {nn : Byte} (hop : s.wordAt op) (hdec : decodeWord op = .ok (.rnd x nn)) :
    stepWith r s = .next (s.advance.setV x (r &&& nn)) := by
  rw [stepWith_of_word r s op hop, hdec]
  rfl

end

/-! ### The obligations -/

/-- Settles O10: there the fetch faults before anything is decoded (`step_outside`). -/
theorem fetchOutsideMemoryFaults : Obligations.FetchOutsideMemoryFaults := fun _ => step_outside

/-- Settles O15: the stored word stands at `pc` (`State.wordAt_withFetchWord`). -/
theorem fetchWordRunsNext : Obligations.FetchWordRunsNext :=
  fun s w _ _ h => step_of_instruction (s.wordAt_withFetchWord 16 w) (decodeWord_of_decodeTableWord h)

/-- Settles O59: CXNN by the word at `pc`, every other Step as the Step without a byte, and the count of draws passed
through. -/
theorem stepTakesItsByte : Obligations.StepTakesItsByte := by
  refine ⟨fun r s op x nn hop hdec => ?_, fun r q s h => ?_, stepWith_withDraws⟩
  · refine ⟨_, stepWith_rnd r s hop hdec, rfl, State.getV_setV_self .., onlyRegs_setV s.advance x _, ?_⟩
    have hframe : OnlyWrites [.pc, .regs] s (s.advance.setV x (r &&& nn)) :=
      ((onlyWrites_advance s).mono (by simp)).trans ((onlyWrites_setV _ x _).mono (by simp))
    exact hframe.onlyChanges
  · rw [stepWith_eq_step r s h, stepWith_eq_step q s h]

/-- Settles O60, instruction by instruction (`execWith_freeByte`) after the one fetch and advance of both Steps. -/
theorem stepIsStepAtFreeByte : Obligations.StepIsStepAtFreeByte := by
  intro s
  simp only [stepWith, step]
  cases s.fetchDecode with
  | error f => rfl
  | ok i => exact execWith_freeByte s.advance i

end Sys2Proof.Machine
end

section
/-! PROOFS. Control transfer (40_flow.md): the call and its return (R103, R101), the computed jump BNNN (R104). -/

namespace Sys2Proof.Machine

/-- RET right after CALL, `pc` at any `a`: the CALL's `pc` comes back, and of the CALL only the written slot is left. -/
theorem execRet_of_call (s : State) (a : Word) (h : s.sp.val < 16) :
    exec .ret { s with pc := a, stack := s.stack.set s.sp.val s.pc, sp := ⟨s.sp.val + 1, by omega⟩ } =
      .next { s with stack := s.stack.set s.sp.val s.pc } := by
  rw [execRet_of_nonempty _ (Nat.succ_pos _)]
  simp

theorem zext16_toNat (b : Byte) : (zext16 b).toNat = b.toNat := BitVec.toNat_setWidth_of_le (by decide)

theorem exec_jpV0 (nnn : Word) (s : State) : exec (.jpV0 nnn) s = .next (s.setPc (zext16 (s.getV 0) + nnn)) := rfl

/-- Settles O25: of CALL and RET together only the written slot is left (`execRet_of_call`). -/
theorem returnUndoesCall : Obligations.ReturnUndoesCall := by
  intro nnn a s hfree
  refine ⟨_, _, execCall_of_free nnn s hfree, execRet_of_call s a hfree, rfl, rfl, fun k hk => ?_, ?_⟩
  · exact Vector.getElem_set_ne hfree k.isLt hk.symm
  · exact OnlyWrites.onlyChanges (by simp [onlyWrites_iff])

/-- Settles O26: a byte and a 12-bit NNN add up to less than 2^16. -/
theorem computedJumpAddsRegisterZero : Obligations.ComputedJumpAddsRegisterZero := by
  intro nnn s hnnn
  refine ⟨_, exec_jpV0 nnn s, ?_, (onlyWrites_setPc s _).onlyChanges⟩
  have hn : nnn.toNat < 0x1000 := of_decide_eq_true hnnn
  have hv : (s.getV 0).toNat < 256 := (s.getV 0).isLt
  rw [State.setPc_pc, BitVec.toNat_add, zext16_toNat, Nat.mod_eq_of_lt (by omega)]

end Sys2Proof.Machine
end

section
/-! PROOFS. Registers and arithmetic (42_alu.md): the shifts and the bit they put out (R148, R150), CXNN (R151). -/

namespace Sys2Proof.Machine

section
variable (x y : Reg) (nn : Byte) (s : State)

theorem exec_shr : exec (.shr x y) s = .next ((s.setFlag (lowBit (s.getV x))).setV x
    ((s.setFlag (lowBit (s.getV x))).getV x >>> 1)) := rfl

theorem exec_shl : exec (.shl x y) s = .next ((s.setFlag (highBit (s.getV x))).setV x
    ((s.setFlag (highBit (s.getV x))).getV x <<< 1)) := rfl

theorem exec_rnd : exec (.rnd x nn) s = .next (rndWith (Config.randomByte s.draws) x nn s).countDraw := rfl

end

/-! ### The shifts and their flags -/

section
variable (b : Byte)

theorem flagByte_lowBit_toNat : (flagByte (lowBit b)).toNat = b.toNat % 2 := by
  rw [flagByte_toNat, lowBit, ← BitVec.testBit_toNat, Nat.testBit_zero]
  simp only [decide_eq_true_eq]
  split <;> omega

theorem flagByte_highBit_toNat : (flagByte (highBit b)).toNat = b.toNat / 128 := by
  have hb : b.toNat < 256 := b.isLt
  rw [flagByte_toNat, highBit, ← BitVec.testBit_toNat, Nat.testBit_eq_decide_div_mod_eq]
  simp only [decide_eq_true_eq]
  split <;> omega

theorem shiftRight_one_toNat : (b >>> 1).toNat = b.toNat / 2 := by
  rw [BitVec.toNat_ushiftRight, Nat.shiftRight_one]

theorem shiftLeft_one_toNat : (b <<< 1).toNat = b.toNat * 2 % 256 := by
  rw [BitVec.toNat_shiftLeft, Nat.shiftLeft_eq, pow_one]

end

/-! ### The flag written first -/

section
variable (s : State) (x : Reg) (b : Byte) (f : Bool)

theorem State.getV_setFlag_vf : (s.setFlag f).getV vf = flagByte f := (s.getV_setFlag f vf).trans (if_pos rfl)

theorem onlyRegs_setFlag_setV : OnlyRegs [x, vf] s ((s.setFlag f).setV x b) := by
  intro r hr
  obtain ⟨hx, hvf⟩ : r ≠ x ∧ r ≠ vf := by simpa using hr
  rw [State.getV_setV, if_neg hx, State.getV_setFlag, if_neg hvf]

end

/-- An instruction that writes the flag and then its result: for X = 0xF the result overwrites the flag (R154, D13). -/
theorem exec_of_setFlag_setV {i : Instr} {s : State} {x : Reg} {b : Byte} {f : Bool}
    (hexec : exec i s = .next ((s.setFlag f).setV x b)) :
    ∃ t, exec i s = .next t ∧ t.getV x = b ∧ (x ≠ vf → t.getV vf = flagByte f) ∧
      OnlyRegs [x, vf] s t ∧ OnlyChanges [.regs] s t := by
  refine ⟨_, hexec, State.getV_setV_self .., fun hx => ?_, onlyRegs_setFlag_setV s x b f,
    ((onlyWrites_setFlag s f).trans (onlyWrites_setV _ x b)).onlyChanges⟩
  rw [State.getV_setV, if_neg hx.symm, State.getV_setFlag_vf]

/-! ### The obligations -/

/-- Settles O33: the flag is written and then the shifted register (`exec_of_setFlag_setV`), which for X = 0xF is the
flag. -/
theorem shiftsPutOutBit : Obligations.ShiftsPutOutBit := by
  intro x y s
  constructor
  · obtain ⟨t, ht, hresult, hflag, hframe⟩ := exec_of_setFlag_setV (exec_shr x y s)
    rw [State.getV_setFlag] at hresult
    refine ⟨t, ht, fun hx => ?_, ?_, hframe⟩
    · rw [hresult, if_neg hx, hflag hx]
      exact ⟨shiftRight_one_toNat _, flagByte_lowBit_toNat _⟩
    · rintro rfl
      rw [hresult, if_pos rfl]
      cases lowBit (s.getV vf) <;> rfl
  · obtain ⟨t, ht, hresult, hflag, hframe⟩ := exec_of_setFlag_setV (exec_shl x y s)
    rw [State.getV_setFlag] at hresult
    refine ⟨t, ht, fun hx => ?_, ?_, hframe⟩
    · rw [hresult, if_neg hx, hflag hx]
      exact ⟨shiftLeft_one_toNat _, flagByte_highBit_toNat _⟩
    · rintro rfl
      rw [hresult, if_pos rfl, ← flagByte_highBit_toNat]
      cases highBit (s.getV vf) <;> rfl

/-- Settles O34: a register write and the count of one draw; a bit that NN has not is not in the AND. -/
theorem randomMasksDrawnByte : Obligations.RandomMasksDrawnByte := by
  intro x nn s
  have hresult (r : Byte) : (rndWith r x nn s).getV x = r &&& nn := s.getV_setV_self x _
  refine ⟨⟨_, exec_rnd x nn s, rfl, hresult _, rfl, onlyRegs_setV s x _,
    (exec_onlyWrites _ (exec_rnd x nn s)).onlyChanges⟩, fun r => ⟨hresult r, fun k hk => ?_⟩⟩
  rw [hresult, BitVec.getElem_and, hk, Bool.and_false]

end Sys2Proof.Machine
end

section
/-! PROOFS. Index register (43_index_memory.md): the addition FX1E (R171), the glyph address FX29 (R172). -/

namespace Sys2Proof.Machine

section
variable (x : Reg) (s : State)

theorem exec_addI : exec (.addI x) s = .next (s.setI (s.i + zext16 (s.getV x))) := rfl

theorem exec_ldF : exec (.ldF x) s = .next (s.setI (glyphAddress (s.getV x))) := rfl

end

/-- Five times a byte fits a word (R172). -/
theorem glyphAddress_toNat (b : Byte) : (glyphAddress b).toNat = 5 * b.toNat := by
  have hb : b.toNat < 256 := b.isLt
  exact (BitVec.toNat_ofNat ..).trans (Nat.mod_eq_of_lt (by simp only [Config.glyphSize]; omega))

/-- Settles O36: each of the two is one write of `I`. -/
theorem indexArithmetic : Obligations.IndexArithmetic := by
  intro x s
  refine ⟨⟨_, exec_addI x s, ?_, (onlyWrites_setI s _).onlyChanges⟩,
    ⟨_, exec_ldF x s, glyphAddress_toNat _, (onlyWrites_setI s _).onlyChanges⟩⟩
  rw [State.setI_i, BitVec.toNat_add, zext16_toNat]

end Sys2Proof.Machine
end

section
/-! PROOFS. Keypad (45_keypad_timers.md): the key skips EX9E and EXA1 (R210, R211), the key wait FX0A (R213). -/

namespace Sys2Proof.Machine

section
variable (x : Reg) (s : State)

theorem execSkp_of_latch (k : Fin 16) (h : k.val = (s.getV x).toNat) :
    exec (.skp x) s = .next (s.skipIf s.key[k.val]) := by
  simp only [exec, execSkp, (keyIndex_eq_some ..).2 h]

theorem execSknp_of_latch (k : Fin 16) (h : k.val = (s.getV x).toNat) :
    exec (.sknp x) s = .next (s.skipIf (!s.key[k.val])) := by
  simp only [exec, execSknp, (keyIndex_eq_some ..).2 h]

theorem execLdVxK_of_least (k : Fin 16) (hk : s.key[k.val] = true) (hleast : ∀ j : Fin 16, j < k → s.key[j.val] = false) :
    exec (.ldVxK x) s = .next (s.setV x (keyByte k)) := by
  simp only [exec, execLdVxK, (leastKey_eq_some ..).2 ⟨hk, hleast⟩]

theorem execLdVxK_of_no_key (h : ∀ k : Fin 16, s.key[k.val] = false) : exec (.ldVxK x) s = .next s.rewind := by
  simp only [exec, execLdVxK, (leastKey_eq_none _).2 h]

/-- The rewind of FX0A undoes the fetch advance (R213). -/
theorem State.rewind_advance : s.advance.rewind = s := by
  have hpc : s.pc + 2 - 2 = s.pc := BitVec.add_sub_cancel _ _
  rw [State.rewind, State.advance_pc, hpc, State.setPc_advance, State.setPc_self]

end

/-! ### The obligations -/

/-- Settles O17: FX0A with no key is the rewind, which takes the fetch advance back (`State.rewind_advance`). -/
theorem keyWaitStepChangesNothing : Obligations.KeyWaitStepChangesNothing := by
  intro s x hword hnone
  have hop : s.wordAt (encode (.ldVxK x)) := hword
  rw [step_of_instruction hop (decodeWord_encode (.ldVxK x) rfl), execLdVxK_of_no_key x s.advance hnone,
    s.rewind_advance]

/-- Settles O28: each of the two is a skip (`exec_skip_of_iff`) whose test is the named latch, or the fault. -/
theorem keySkipsTestLatch : Obligations.KeySkipsTestLatch := by
  intro x s
  refine ⟨fun k hk => ⟨exec_skip_of_iff (execSkp_of_latch x s k hk) Iff.rfl, ?_⟩,
    fun h => ⟨execSkp_of_not_key x s h, execSknp_of_not_key x s h⟩⟩
  have hskip := exec_skip_of_iff (p := ¬ s.key[k.val] = true) (execSknp_of_latch x s k hk) (by simp)
  simpa only [ite_not] using hskip

/-- Settles O44: the least key is written as its byte (`exec_of_setV`), or `pc` is rewound. -/
theorem keyWaitReportsLeastKey : Obligations.KeyWaitReportsLeastKey := by
  intro x s
  refine ⟨fun k hk hleast => ?_, fun hnone => ?_⟩
  · obtain ⟨t, ht, hresult, hframe⟩ := exec_of_setV (execLdVxK_of_least x s k hk hleast)
    exact ⟨t, ht, (congrArg BitVec.toNat hresult).trans (keyByte_toNat k), hframe⟩
  · exact ⟨_, execLdVxK_of_no_key x s hnone, rfl, (onlyWrites_rewind s).onlyChanges⟩

end Sys2Proof.Machine
end

section
/-! PROOFS. The draw DXYN (44_display.md R191, R193, R195): which cells it toggles, what it reports in VF, and what a second
draw of the same sprite does. -/

namespace Sys2Proof.Machine

/-! ### Cells toggled by a draw -/

/-- What R191 says of a draw over the covered cells, from the display `d` to the display `e`: each is toggled, no other is,
and `hit` tells whether one of them was lit. -/
structure Toggled (covered : Fin 2048 → Prop) (d e : Display) (hit : Bool) : Prop where
  inside : ∀ c, covered c → e.cell c = !d.cell c
  outside : ∀ c, ¬ covered c → e.cell c = d.cell c
  hit_iff : hit = true ↔ ∃ c, d.cell c = true ∧ covered c

section
variable {covered : Fin 2048 → Prop} {d e f : Display} {hit hit' : Bool}

/-- Toggled twice, every cell is as it was. -/
theorem Toggled.twice (h : Toggled covered d e hit) (k : Toggled covered e f hit') (c : Fin 2048) :
    f.cell c = d.cell c := by
  by_cases hc : covered c
  · rw [k.inside c hc, h.inside c hc, Bool.not_not]
  · rw [k.outside c hc, h.outside c hc]

/-- The second draw hits the cells that the first one lit. -/
theorem Toggled.hit_twice_iff (h : Toggled covered d e hit) (k : Toggled covered e f hit') :
    hit' = true ↔ ∃ c, d.cell c = false ∧ covered c := by
  rw [k.hit_iff]
  refine exists_congr fun c => and_congr_left fun hc => ?_
  rw [h.inside c hc, Bool.not_eq_true']

end

/-! ### The sprite of a DXYN -/

/-- The cell lies under the sprite that DXYN draws from `s` (R191, R193). -/
abbrev State.spriteOn (s : State) (x y : Reg) (n : Nat) (c : Fin 2048) : Prop :=
  spriteCovers s.mem s.i.toNat n (s.getV x).toNat (s.getV y).toNat (c.val % 64) (c.val / 64)

/-- The pixels of the sprite read from memory hit exactly the cells it covers. -/
theorem exists_hitsCell_iff (m : Memory) (a n x0 y0 : Nat) (c : Fin 2048) :
    (∃ p ∈ spritePixels x0 y0 ((List.range n).map fun k => m.peek (a + k)), hitsCell c p) ↔
      spriteCovers m a n x0 y0 (c.val % 64) (c.val / 64) := by
  constructor
  · rintro ⟨p, hp, hbit, hcell⟩
    obtain ⟨row, hrow, col, hcol, rfl⟩ := (mem_spritePixels ..).1 hp
    rw [List.length_map, List.length_range] at hrow
    rw [List.getElem_map, List.getElem_range] at hbit
    obtain ⟨hx, hy⟩ := (cellAt_eq_iff ..).1 hcell
    exact ⟨row, col, hrow, hcol, hbit, hx, hy⟩
  · rintro ⟨row, col, hrow, hcol, hbit, hx, hy⟩
    refine ⟨_, (mem_spritePixels ..).2 ⟨row, by simpa using hrow, col, hcol, rfl⟩, ?_, (cellAt_eq_iff ..).2 ⟨hx, hy⟩⟩
    rw [List.getElem_map, List.getElem_range]
    exact hbit

/-- Drawing a sprite of at most 32 rows toggles the cells it covers: no two of its pixels fall on one cell. -/
theorem drawSprite_toggled (m : Memory) (a n x0 y0 : Nat) (d : Display) (hn : n ≤ 32) :
    Toggled (fun c => spriteCovers m a n x0 y0 (c.val % 64) (c.val / 64)) d
      (drawSprite x0 y0 ((List.range n).map fun k => m.peek (a + k)) (d, false)).1
      (drawSprite x0 y0 ((List.range n).map fun k => m.peek (a + k)) (d, false)).2 := by
  have hdistinct := spritePixels_distinct x0 y0 ((List.range n).map fun k => m.peek (a + k)) (by simpa using hn)
  obtain ⟨hcells, hhit⟩ := drawPixels_spec _ (d, false) hdistinct
  have hcovers := exists_hitsCell_iff m a n x0 y0
  rw [drawSprite_eq_drawPixels]
  refine ⟨fun c hc => ?_, fun c hc => ?_, ?_⟩
  · rw [hcells, decide_eq_true ((hcovers c).2 hc), Bool.xor_true]
  · rw [hcells, decide_eq_false (mt (hcovers c).1 hc), Bool.xor_false]
  · simpa only [hcovers, Bool.false_eq_true, false_or] using hhit

/-! ### The instruction -/

section
variable (x y : Reg) (n : Nat) (s : State)

/-- DXYN whose sprite bytes are in memory completes: the display toggled, then VF the collision (R191). -/
theorem execDrw_toggled (hn : n ≤ 15) (hfit : n = 0 ∨ s.i.toNat + n - 1 ≤ 4095) : ∃ d hit,
    exec (.drw x y n) s = .next ((s.setDisp d).setFlag hit) ∧ Toggled (s.spriteOn x y n) s.disp d hit := by
  refine ⟨_, _, ?_, drawSprite_toggled s.mem s.i.toNat n (s.getV x).toNat (s.getV y).toNat s.disp (by omega)⟩
  have hblock : n = 0 ∨ s.i.toNat + n ≤ 4096 := by omega
  simp only [exec, execDrw, State.base, Memory.readBlock_eq, if_pos hblock]

/-- DXYN that completes had its sprite bytes in memory. -/
theorem fits_of_execDrw_next {t : State} (h : exec (.drw x y n) s = .next t) :
    n = 0 ∨ s.i.toNat + n - 1 ≤ 4095 := by
  by_contra hout
  rw [execDrw_of_not_fits x y n s (by omega)] at h
  cases h

end

theorem flagByte_eq_one_iff (b : Bool) : flagByte b = 1 ↔ b = true := by
  cases b <;> decide

/-! ### The obligations -/

/-- Settles O42: the draw's specification (`execDrw_toggled`), clause by clause; the frame is that of the instruction. -/
theorem drawTogglesCoveredCells : Obligations.DrawTogglesCoveredCells := by
  intro x y n s hn
  refine ⟨fun hfit => ?_, execDrw_of_not_fits x y n s⟩
  obtain ⟨d, hit, hexec, htoggled⟩ := execDrw_toggled x y n s hn hfit
  rw [← State.setDisp_disp s d] at htoggled
  refine ⟨_, hexec, fun c => ⟨htoggled.inside c, htoggled.outside c⟩, fun hlit => ?_, fun hunlit => ?_,
    fun r hr => ?_, (exec_onlyWrites _ hexec).onlyChanges⟩
  · rw [State.getV_setFlag_vf, htoggled.hit_iff.2 hlit]
    rfl
  · have hmiss : hit = false := by
      rw [Bool.eq_false_iff]
      intro hhit
      obtain ⟨c, hlit, hcovered⟩ := htoggled.hit_iff.1 hhit
      exact hunlit c hlit hcovered
    rw [State.getV_setFlag_vf, hmiss]
    rfl
  · exact exec_getV_of_not_mayWriteReg _ hexec r (List.ne_of_not_mem_cons hr)

/-- Settles O43: the first draw kept memory, `I` and the coordinates, so the second one toggles the same cells
(`Toggled.twice`). -/
theorem drawTwiceRestoresDisplay : Obligations.DrawTwiceRestoresDisplay := by
  intro x y n s t hn h hx hy
  have hfit := fits_of_execDrw_next x y n s h
  obtain ⟨d, hit, hexec, htoggled⟩ := execDrw_toggled x y n s hn hfit
  obtain rfl : (s.setDisp d).setFlag hit = t := Host.Outcome.next.inj (hexec.symm.trans h)
  obtain ⟨e, hit', hexec', htoggled'⟩ := execDrw_toggled x y n ((s.setDisp d).setFlag hit) hn hfit
  have hsame : State.spriteOn ((s.setDisp d).setFlag hit) x y n = s.spriteOn x y n := by
    unfold State.spriteOn
    rw [hx, hy]
    rfl
  rw [hsame] at htoggled'
  refine ⟨_, hexec', htoggled.twice htoggled', ?_⟩
  rw [State.getV_setFlag_vf, flagByte_eq_one_iff]
  exact htoggled.hit_twice_iff htoggled'

end Sys2Proof.Machine
end
